-- ==== Sys2Proof/Word.lean ====
section
/-!
DEFINITION. The word of SimpleVM CORE (spec 00_scope.md R8): the content of one memory cell or one register, the integer it
denotes, and the value domain `V_W` it must lie in. A word IS the integer it denotes (R8: words are signed, every comparison
between words is the comparison of integers), so its type is written `Int` throughout the model
(DEDUCED, log entry 3).
-/

namespace Sys2Proof

/-- The parameter `W` (R6): unbounded integers (`W = ∞`, the reference instance) or two's complement words of `w` bits. -/
inductive WordBits where
  | unbounded
  | bits (w : Nat)
  deriving DecidableEq, Repr

/-- Membership in the value domain `V_W` (R8): all of ℤ for `W = ∞`, `[-2^(W-1), 2^(W-1) - 1]` for finite `W`. -/
def WordBits.contains : WordBits → Int → Bool
  | .unbounded, _ => true
  | .bits w, v => decide (-(2 ^ (w - 1) : Int) ≤ v) && decide (v ≤ (2 ^ (w - 1) : Int) - 1)

end Sys2Proof
end

