-- ==== Sys2Proof/Config.lean ====
section
/-!
DEFINITION. The implementation parameters of spec 00_scope.md R6. Each is fixed for the whole life of a machine: a `Config` is
held in the state and nothing changes it (DESIGN CHOICE, log entry 1). `NGPR` is not here: R6 fixes it at 8.
-/

namespace Sys2Proof

/-- The parameters a machine instance is constructed with (R6). -/
structure Config where
  /-- `N` (MEM_SIZE): the number of memory cells. -/
  memSize : Nat
  /-- `W` (WORD_BITS): the width of a cell and of every register. -/
  wordBits : WordBits
  /-- `STACK_BASE`: the reset value of SP and FP. -/
  stackBase : Nat
  /-- `CHAR_MAX`: the largest character code the I/O routines accept. -/
  charMax : Nat
  deriving DecidableEq, Repr

namespace Config

/-- `v` is a word of this machine: an element of `V_W` (R8). -/
abbrev inDomain (c : Config) (v : Int) : Prop := c.wordBits.contains v = true

/-- The constraints of R6: `N ≥ 1`; `0 ≤ STACK_BASE ≤ N`; `CHAR_MAX ≥ 127`; `W = ∞`, or `W ≥ 8` and `N ≤ 2^(W-1) - 1`. -/
def wf (c : Config) : Bool :=
  decide (1 ≤ c.memSize) && decide (c.stackBase ≤ c.memSize) && decide (127 ≤ c.charMax) &&
    match c.wordBits with
    | .unbounded => true
    | .bits w => decide (8 ≤ w) && decide ((c.memSize : Int) ≤ (2 ^ (w - 1) : Int) - 1)

/-- The instance of 95_test_vectors.md (its Conventions): `N = 256`, `STACK_BASE = 128`, `W = ∞`, `CHAR_MAX = 0x10FFFF`.
DESIGN CHOICE (log entry 2): R6 leaves `N` and `STACK_BASE` open. -/
def reference : Config := ⟨256, .unbounded, 128, 1114111⟩

end Config
end Sys2Proof
end

