-- ==== Sys2Proof/Syntax.lean ====
section
/-!
DEFINITION. The instructions of SimpleVM CORE (spec 30_encoding.md R51, R52): one constructor per row of the opcode table, with
the operands already decoded (register names, interrupt codes) or used as the word they are (immediates, targets).
-/

namespace Sys2Proof

/-- The eleven registers a register operand can name (spec 10_state.md R14, R15). -/
inductive Reg where
  | r0 | r1 | r2 | r3 | r4 | r5 | r6 | r7 | ac | sp | fp
  deriving DecidableEq, Repr

/-- The three interrupt codes (spec 45_interrupt.md R103). -/
inductive IntCode where
  /-- Code 0: emit one character. -/
  | putChar
  /-- Code 1: emit a zero-terminated string and a newline. -/
  | putString
  /-- Code 2: read one line. -/
  | readLine
  deriving DecidableEq, Repr

/-- An instruction, its operands in word order (R51, R52). -/
inductive Instr where
  | brk
  | dbg
  | load (r : Reg) (imm : Int)
  | mov (rd rs : Reg)
  | push (r : Reg)
  | pop (r : Reg)
  | add (ra rb : Reg)
  | addi (ra : Reg) (imm : Int)
  | sub (ra rb : Reg)
  | subi (ra : Reg) (imm : Int)
  | mul (ra rb : Reg)
  | muli (ra : Reg) (imm : Int)
  | inc (r : Reg)
  | dec (r : Reg)
  | cmp (rd rs : Reg)
  | clf
  | jmp (t : Int)
  | jz (t : Int)
  | jnz (t : Int)
  | je (t : Int)
  | jne (t : Int)
  | call (t : Int)
  | ret
  | int (c : IntCode)
  deriving DecidableEq, Repr

/-- The number of memory words an instruction occupies: its opcode word and its operand words (R45, R51). -/
def Instr.length : Instr → Nat
  | .brk | .dbg | .clf | .ret => 1
  | .push _ | .pop _ | .inc _ | .dec _ => 2
  | .jmp _ | .jz _ | .jnz _ | .je _ | .jne _ | .call _ => 2
  | .int _ => 2
  | .mov _ _ | .add _ _ | .sub _ _ | .mul _ _ | .cmp _ _ => 3
  | .load _ _ | .addi _ _ | .subi _ _ | .muli _ _ => 3

end Sys2Proof
end

