-- ==== Sys2Proof/Machine/State.lean ====
section
/-!
DEFINITION. The state of SimpleVM CORE (spec 10_state.md, 20_memory.md R31), the fault kinds (60_exceptions.md R110), the host's
boundary operations as data (R123), and the state after reset (10_state.md R29).
-/

namespace Sys2Proof.Machine

/-! ### Why the model itself stops: never -/

/-- The model's own faults: none. Every error of spec 60_exceptions.md R110 is an architectural event whose outcome the spec
gives (the run state Faulted, R111), so it is a NEXT state, and no step stops with a fault (DEDUCED, log entry 6). -/
inductive Fault where
  deriving DecidableEq, Repr

/-- The model's own refusals. -/
inductive Refusal where
  /-- Raised by an arm of `exec` for an instruction that has no meaning yet; safe. No arm raises it: every row of the opcode
  table has its meaning. -/
  | notModelled (mnemonic : String)
  deriving DecidableEq, Repr

/-! ### Registers -/

/-- The register file (10_state.md R14): eight general-purpose registers, the accumulator, the stack and the frame pointer. -/
structure RegFile where
  r0 : Int
  r1 : Int
  r2 : Int
  r3 : Int
  r4 : Int
  r5 : Int
  r6 : Int
  r7 : Int
  ac : Int
  sp : Int
  fp : Int
  deriving DecidableEq, Repr

/-! ### Memory -/

/-- Memory as plain data (20_memory.md R31): the cells that hold another word than 0, as (address, word) pairs with addresses
strictly rising; an unlisted cell reads as 0, its reset content (10_state.md R29). A cell holds a whole word, so a cell is no
byte (R34; DEDUCED, log entry 7). -/
abbrev Memory := List (Nat × Int)

/-! ### Faults and the run state -/

/-- The fault kinds (60_exceptions.md R110). -/
inductive FaultKind where
  | endOfMemory
  | invalidOpcode
  | badRegister
  | badAddress
  | stackOverflow
  | stackUnderflow
  | badInterrupt
  | badArgCount
  | unbalancedReturn
  | badCharacter
  deriving DecidableEq, Repr

/-- What `raise K(info)` carries (00_scope.md R10, 60_exceptions.md R110). -/
structure Raise where
  kind : FaultKind
  info : Int
  deriving DecidableEq, Repr

/-- The record of the run state Faulted (10_state.md R25, 60_exceptions.md R111). -/
structure FaultRecord where
  kind : FaultKind
  info : Int
  /-- The address of the opcode word of the faulting instruction. -/
  fpc : Int
  deriving DecidableEq, Repr

/-- The two Suspended kinds (40_dispatch.md R61). -/
inductive SuspendKind where
  /-- INT 2 waits for a line; `fpc`, the address of that INT, is kept for its second phase (45_interrupt.md R106, R107;
  DEDUCED, log entry 13). -/
  | input (fpc : Int)
  /-- DBG has passed control to the debug surface (40_dispatch.md R69). -/
  | debug
  deriving DecidableEq, Repr

/-- The two Halted causes (10_state.md R25). -/
inductive HaltCause where
  | brk
  | debugTerminate
  deriving DecidableEq, Repr

/-- The run state (10_state.md R25, 40_dispatch.md R61). -/
inductive RunState where
  | ready
  | running
  | suspended (kind : SuspendKind)
  | halted (cause : HaltCause)
  | faulted (record : FaultRecord)
  deriving DecidableEq, Repr

/-! ### The host's side of the boundary -/

/-- The boundary operations that can change the core (60_exceptions.md R123). -/
inductive HostOp where
  | load (offset : Int) (words : List Int)
  | seed (offset : Int) (codes : List Int)
  | setEntry (a : Int)
  | run
  | deliverLine (line : List Int)
  /-- The debug surface's Continue (R130). -/
  | resume
  /-- The debug surface's Terminate (R130). -/
  | terminate
  deriving DecidableEq, Repr

/-- What the core returns to the host for one operation (60_exceptions.md R123). -/
inductive HostReply where
  | accepted
  | refused
  deriving DecidableEq, Repr

/-! ### The state -/

/-- The whole state of one machine instance (10_state.md, the record at its head). -/
structure State where
  /-- The implementation parameters the machine was constructed with (00_scope.md R6); nothing changes them. -/
  cfg : Config
  /-- The register file (R14 to R20). -/
  x : RegFile
  /-- The instruction pointer (R21). -/
  pc : Int
  /-- The flag EF, "equal" (R22). -/
  ef : Bool
  /-- The flag ZF, "zero" (R22). -/
  zf : Bool
  /-- The reserved flag DF (R22, R23). -/
  df : Bool
  /-- The frame-size counter FS (R26). -/
  fs : Int
  /-- The call-depth counter CD (R27). -/
  cd : Nat
  /-- The memory cells (20_memory.md R31). -/
  mem : Memory
  /-- The run state (R25). -/
  run : RunState
  /-- The output stream (R28): one entry per output event, in emission order (60_exceptions.md R131; DEDUCED, log entry 15). -/
  out : List Int
  /-- The MODEL's own field (DESIGN CHOICE, log entry 4): the host operations still to come, in order. -/
  inbox : List HostOp
  /-- The MODEL's own field (DESIGN CHOICE, log entry 4): the answers given to the host operations taken so far, in order. -/
  replies : List HostReply
  deriving DecidableEq, Repr

/-- A newly constructed machine (10_state.md R29, 70_reset_and_hazards.md R135), with no host operation to come. -/
def State.construct (c : Config) : State where
  cfg := c
  x := ⟨0, 0, 0, 0, 0, 0, 0, 0, 0, c.stackBase, c.stackBase⟩
  pc := 0
  ef := false
  zf := false
  df := false
  fs := 0
  cd := 0
  mem := []
  run := .ready
  out := []
  inbox := []
  replies := []

/-- The machine right after reset: reset is construction (70_reset_and_hazards.md R135), here with the parameters of
`Config.reference` (DESIGN CHOICE, log entry 2). -/
def State.reset : State := State.construct Config.reference

end Sys2Proof.Machine
end

