-- ==== Sys2Proof/Machine/Ops.lean ====
section
/-!
DEFINITION. The named operations over registers, memory and the run state that every meaning is written with: `wrap`, register
access, the two memory primitives, the updates of the other state, and taking a fault.
-/

namespace Sys2Proof.Machine

/-! ### Arithmetic -/

/-- `wrap(z)` (00_scope.md R9): the identity for `W = ∞`, the two's complement reduction for finite `W`. -/
def wrap (W : WordBits) (z : Int) : Int :=
  match W with
  | .unbounded => z
  | .bits w => (z + 2 ^ (w - 1)) % 2 ^ w - 2 ^ (w - 1)

/-- `wrap` for this machine's words. -/
def State.wrap (s : State) (z : Int) : Int := Machine.wrap s.cfg.wordBits z

/-! ### Registers -/

/-- The word a register holds (10_state.md R14, R15, R20). -/
def RegFile.get (x : RegFile) : Reg → Int
  | .r0 => x.r0
  | .r1 => x.r1
  | .r2 => x.r2
  | .r3 => x.r3
  | .r4 => x.r4
  | .r5 => x.r5
  | .r6 => x.r6
  | .r7 => x.r7
  | .ac => x.ac
  | .sp => x.sp
  | .fp => x.fp

/-- Writes a register: no register is hardwired or read-only (10_state.md R14). -/
def RegFile.set (x : RegFile) (r : Reg) (v : Int) : RegFile :=
  match r with
  | .r0 => { x with r0 := v }
  | .r1 => { x with r1 := v }
  | .r2 => { x with r2 := v }
  | .r3 => { x with r3 := v }
  | .r4 => { x with r4 := v }
  | .r5 => { x with r5 := v }
  | .r6 => { x with r6 := v }
  | .r7 => { x with r7 := v }
  | .ac => { x with ac := v }
  | .sp => { x with sp := v }
  | .fp => { x with fp := v }

/-- `x[i]` (00_scope.md R10). -/
def State.reg (s : State) (r : Reg) : Int := s.x.get r

/-- `x[i] <- v` (00_scope.md R10): SP and FP take any word, unchecked (10_state.md R18, R19). -/
def State.setReg (s : State) (r : Reg) (v : Int) : State := { s with x := s.x.set r v }

/-- The general-purpose registers in the order CALL saves them (10_state.md R16). -/
def gprs : List Reg := [.r0, .r1, .r2, .r3, .r4, .r5, .r6, .r7]

/-! ### Memory -/

/-- What an unlisted cell reads as: every cell is 0 at reset (10_state.md R29). -/
def blankCell : Int := 0

/-- The word in cell `a`. -/
def Memory.read : Memory → Nat → Int
  | [], _ => blankCell
  | (b, w) :: m, a => if a = b then w else Memory.read m a

/-- `m` with `v` in cell `a`, in the canonical form: addresses rising, no listed blank cell. -/
def Memory.write : Memory → Nat → Int → Memory
  | [], a, v => if v = blankCell then [] else [(a, v)]
  | (b, w) :: m, a, v =>
    if a < b then if v = blankCell then (b, w) :: m else (a, v) :: (b, w) :: m
    else if a = b then if v = blankCell then m else (a, v) :: m
    else (b, w) :: Memory.write m a v

/-- The canonical form: addresses strictly rising, no listed cell holding what an unlisted one reads as. -/
abbrev Memory.wf (m : Memory) : Prop := m.Pairwise (fun p q => p.1 < q.1) ∧ ∀ p ∈ m, p.2 ≠ blankCell

/-- `a` is an address: `0 ≤ a < N` (20_memory.md R32). -/
abbrev State.isAddress (s : State) (a : Int) : Prop := 0 ≤ a ∧ a < s.cfg.memSize

/-- The memory port's `read(a)` (20_memory.md R44), for an address already checked. -/
def State.cell (s : State) (a : Int) : Int := s.mem.read a.toNat

/-- The memory port's `write(a, v)` (20_memory.md R44), for an address already checked. -/
def State.setCell (s : State) (a v : Int) : State := { s with mem := s.mem.write a.toNat v }

/-- `MemRead(a, 1)` (20_memory.md R32). -/
def State.memRead (s : State) (a : Int) : Except Raise Int :=
  if s.isAddress a then .ok (s.cell a) else .error ⟨.badAddress, a⟩

/-- `MemWrite(a, 1, v)` (20_memory.md R32). -/
def State.memWrite (s : State) (a v : Int) : Except Raise State :=
  if s.isAddress a then .ok (s.setCell a v) else .error ⟨.badAddress, a⟩

/-- Writes a list of words to consecutive cells from `a` on, one checked `MemWrite` each, lowest address first. -/
def State.memWriteList (s : State) (a : Int) : List Int → Except Raise State
  | [] => .ok s
  | v :: vs =>
    match s.memWrite a v with
    | .ok t => t.memWriteList (a + 1) vs
    | .error e => .error e

/-! ### The rest of the state -/

/-- `pc <- a`. -/
def State.setPc (s : State) (a : Int) : State := { s with pc := a }

/-- `pc` after the `n` fetches of an instruction (10_state.md R21). It is not wrapped: a fetch succeeds only at `pc < N`, so
no wrap is possible (40_dispatch.md R62; DEDUCED, log entry 16). -/
def State.advance (s : State) (n : Nat) : State := s.setPc (s.pc + n)

/-- `FS <- v` (10_state.md R26). -/
def State.setFs (s : State) (v : Int) : State := { s with fs := v }

/-- `CD <- n` (10_state.md R27). -/
def State.setCd (s : State) (n : Nat) : State := { s with cd := n }

/-- `run <- r` (10_state.md R25). -/
def State.setRun (s : State) (r : RunState) : State := { s with run := r }

/-- `emit` of each code in order (60_exceptions.md R131): `out` is only ever appended to (10_state.md R28). -/
def State.emit (s : State) (cs : List Int) : State := { s with out := s.out ++ cs }

/-! ### Taking a fault

There is no handler, vector, saved register or return from a fault (60_exceptions.md R109, R116, R117): taking one ends the run
in the run state Faulted. -/

/-- The cause code of a fault kind (60_exceptions.md R110). -/
def FaultKind.code : FaultKind → Nat
  | .endOfMemory => 1
  | .invalidOpcode => 2
  | .badRegister => 3
  | .badAddress => 4
  | .stackOverflow => 5
  | .stackUnderflow => 6
  | .badInterrupt => 7
  | .badArgCount => 8
  | .unbalancedReturn => 9
  | .badCharacter => 10

/-- Taking a fault of the instruction at `fpc`, from the state before that instruction began: `pc` is (or goes back to) `fpc`,
the run state records kind, info and `fpc`, and nothing else changes (40_dispatch.md R63, 60_exceptions.md R111). -/
def State.takeFault (s : State) (fpc : Int) (e : Raise) : State :=
  { s with pc := fpc, run := .faulted ⟨e.kind, e.info, fpc⟩ }

/-- An instruction's rule is executed on a copy of the state, which replaces the state only when the rule ends without `raise`;
otherwise the instruction at `s.pc` takes the fault (00_scope.md R11, 40_dispatch.md R63). -/
def commit (s : State) (r : Except Raise State) : Host.Outcome State Fault Refusal :=
  match r with
  | .ok t => .next t
  | .error e => .next (s.takeFault s.pc e)

end Sys2Proof.Machine
end

