-- ==== Sys2Proof/Machine/Operands.lean ====
section
/-!
DEFINITION. What an operand of each kind gives (spec 30_encoding.md R47 to R50), and the shapes of instruction that share them:
a result into AC, a register updated in place, a jump. Register operands and interrupt codes are already decoded.
-/

namespace Sys2Proof.Machine

/-- A register operand read as a source: the word it holds (R48, 00_scope.md R10). -/
def State.regOperand (s : State) (r : Reg) : Int := s.reg r

/-- An immediate operand: the operand word unchanged (R49). -/
def immOperand (imm : Int) : Int := imm

/-- A target operand: an absolute address, the operand word unchanged and unchecked (R50). -/
def targetOperand (t : Int) : Int := t

/-- Accumulator arithmetic (43_arith_compare.md R83 to R88, R93): `AC <- wrap(z)`, after fetches of `n` words. -/
def State.accumulate (s : State) (n : Nat) (z : Int) : State := (s.advance n).setReg .ac (s.wrap z)

/-- An in-place update (43_arith_compare.md R89, R90): `x[r] <- wrap(x[r] + d)`. -/
def State.stepReg (s : State) (r : Reg) (d : Int) : State := (s.advance 2).setReg r (s.wrap (s.regOperand r + d))

/-- A jump taken when `c` holds (44_control_transfer.md R94 to R98); not taken, `pc` is the address after the operand word. -/
def State.jumpIf (s : State) (c : Bool) (t : Int) : State :=
  if c then (s.advance 2).setPc (targetOperand t) else s.advance 2

end Sys2Proof.Machine
end

