-- ==== Sys2Proof/Machine/Arith.lean ====
section
/-!
DEFINITION. Arithmetic (spec 43_arith_compare.md R83 to R90, R93): six instructions write `wrap` of the exact result into AC and
nowhere else; INC and DEC update a register in place. None writes a flag or FS, and none faults.
-/

namespace Sys2Proof.Machine

/-- ADD ra, rb (R83). -/
def execAdd (ra rb : Reg) (s : State) : Host.Outcome State Fault Refusal :=
  .next (s.accumulate 3 (s.regOperand ra + s.regOperand rb))

/-- ADDI ra, imm (R84). -/
def execAddi (ra : Reg) (imm : Int) (s : State) : Host.Outcome State Fault Refusal :=
  .next (s.accumulate 3 (s.regOperand ra + immOperand imm))

/-- SUB ra, rb (R85): first minus second. -/
def execSub (ra rb : Reg) (s : State) : Host.Outcome State Fault Refusal :=
  .next (s.accumulate 3 (s.regOperand ra - s.regOperand rb))

/-- SUBI ra, imm (R86): register minus immediate. -/
def execSubi (ra : Reg) (imm : Int) (s : State) : Host.Outcome State Fault Refusal :=
  .next (s.accumulate 3 (s.regOperand ra - immOperand imm))

/-- MUL ra, rb (R87): the exact signed product, wrapped. -/
def execMul (ra rb : Reg) (s : State) : Host.Outcome State Fault Refusal :=
  .next (s.accumulate 3 (s.regOperand ra * s.regOperand rb))

/-- MULI ra, imm (R88). -/
def execMuli (ra : Reg) (imm : Int) (s : State) : Host.Outcome State Fault Refusal :=
  .next (s.accumulate 3 (s.regOperand ra * immOperand imm))

/-- INC r (R89). -/
def execInc (r : Reg) (s : State) : Host.Outcome State Fault Refusal := .next (s.stepReg r 1)

/-- DEC r (R90). -/
def execDec (r : Reg) (s : State) : Host.Outcome State Fault Refusal := .next (s.stepReg r (-1))

end Sys2Proof.Machine
end

