-- ==== Sys2Proof/Machine/Flags.lean ====
section
/-!
DEFINITION. Every flag computation of the spec (10_state.md R22 to R24): CMP sets EF and ZF and never clears one
(43_arith_compare.md R91), CLF clears all three (R92), and the four conditional branches read them (44_control_transfer.md).
-/

namespace Sys2Proof.Machine

/-- CMP's flags (43_arith_compare.md R91): EF to 1 when `d = v`, ZF to 1 when the source `v` is zero; sticky otherwise. -/
def State.compareFlags (s : State) (d v : Int) : State :=
  { s with ef := s.ef || decide (d = v), zf := s.zf || decide (v = 0) }

/-- CLF's flags (43_arith_compare.md R92). -/
def State.clearFlags (s : State) : State := { s with ef := false, zf := false, df := false }

/-- JZ's condition: ZF = 1 (44_control_transfer.md R95). -/
def State.condZ (s : State) : Bool := s.zf

/-- JNZ's condition: ZF = 0 (44_control_transfer.md R96). -/
def State.condNz (s : State) : Bool := !s.zf

/-- JE's condition: EF = 1 (44_control_transfer.md R97). -/
def State.condE (s : State) : Bool := s.ef

/-- JNE's condition: EF = 0 (44_control_transfer.md R98). -/
def State.condNe (s : State) : Bool := !s.ef

end Sys2Proof.Machine
end

