-- ==== Sys2Proof/Machine/Compare.lean ====
section
/-!
DEFINITION. CMP and CLF (spec 43_arith_compare.md R91, R92). Neither writes a register.
-/

namespace Sys2Proof.Machine

/-- CMP rd, rs (R91). -/
def execCmp (rd rs : Reg) (s : State) : Host.Outcome State Fault Refusal :=
  .next ((s.advance 3).compareFlags (s.regOperand rd) (s.regOperand rs))

/-- CLF (R92). -/
def execClf (s : State) : Host.Outcome State Fault Refusal := .next (s.advance 1).clearFlags

end Sys2Proof.Machine
end

