-- ==== Sys2Proof/Machine/Control.lean ====
section
/-!
DEFINITION. Machine control: BRK and DBG (spec 40_dispatch.md R68, R69).
-/

namespace Sys2Proof.Machine

/-- BRK (R68): halts the run; `pc` is the address after BRK. -/
def execBrk (s : State) : Host.Outcome State Fault Refusal := .next ((s.advance 1).setRun (.halted .brk))

/-- DBG (R69): suspends the run for the debug surface; `pc` is the address after DBG. -/
def execDbg (s : State) : Host.Outcome State Fault Refusal := .next ((s.advance 1).setRun (.suspended .debug))

end Sys2Proof.Machine
end

