-- ==== Sys2Proof/Machine/Stack.lean ====
section
/-!
DEFINITION. The stack and frame primitives push, pop, enter and leave (spec 41_stack_frame.md R71 to R75). They are no
instructions: each runs inside the step of the instruction that uses it, so a `raise` in one faults that instruction.
-/

namespace Sys2Proof.Machine

/-- `push(v)` (R71): writes `v` at SP, then advances SP and FS. -/
def State.push (s : State) (v : Int) : Except Raise State :=
  let sp := s.reg .sp
  if sp ≥ s.cfg.memSize then .error ⟨.stackOverflow, sp⟩
  else if sp < 0 then .error ⟨.stackUnderflow, sp⟩
  else .ok (((s.setCell sp v).setReg .sp (sp + 1)).setFs (s.wrap (s.fs + 1)))

/-- `pop()` (R72): retreats SP and FS and reads the word at the new SP; the cell keeps its value. -/
def State.pop (s : State) : Except Raise (Int × State) :=
  let sp := s.reg .sp
  if sp - 1 < 0 then .error ⟨.stackUnderflow, sp⟩
  else if sp - 1 ≥ s.cfg.memSize then .error ⟨.stackOverflow, sp⟩
  else .ok (s.cell (sp - 1), (s.setReg .sp (sp - 1)).setFs (s.wrap (s.fs - 1)))

/-- Pushes a list of words, the first one first. -/
def State.pushAll (s : State) : List Int → Except Raise State
  | [] => .ok s
  | v :: vs =>
    match s.push v with
    | .ok t => t.pushAll vs
    | .error e => .error e

/-- `x[i] <- pop()` for each register of a list, the first one first. -/
def State.popInto (s : State) : List Reg → Except Raise State
  | [] => .ok s
  | r :: rs =>
    match s.pop with
    | .ok (v, t) => (t.setReg r v).popInto rs
    | .error e => .error e

/-- `repeat n times: pop()`, the words discarded. -/
def State.discard (s : State) : Nat → Except Raise State
  | 0 => .ok s
  | n + 1 =>
    match s.pop with
    | .ok (_, t) => t.discard n
    | .error e => .error e

/-- `enter()` (R74): saves R0 to R7, then `pc`, then FS as it stands before that push, and opens a frame at the new SP. -/
def State.enter (s : State) : Except Raise State :=
  match s.pushAll (gprs.map s.reg) with
  | .error e => .error e
  | .ok s1 =>
    match s1.push s1.pc with
    | .error e => .error e
    | .ok s2 =>
      match s2.push s2.fs with
      | .error e => .error e
      | .ok s3 => .ok ((s3.setReg .fp (s3.reg .sp)).setFs 0)

/-- The last part of `leave()` (R75), once the saved state is back: pops the argument count `n`, faults if it is negative,
discards `n` further words and installs the return address. -/
def State.dropArguments (s : State) (ra : Int) : Except Raise State :=
  match s.pop with
  | .error e => .error e
  | .ok (n, t) =>
    if n < 0 then .error ⟨.badArgCount, n⟩
    else
      match t.discard n.toNat with
      | .error e => .error e
      | .ok u => .ok (u.setPc ra)

/-- `leave()` (R75): restores SP from FP, FS, the return address and R7 down to R0 from the frame, recomputes FP as
`F0 - S - 1` (R78; 90_conflicts.md C1), and drops the caller's arguments. -/
def State.leave (s : State) : Except Raise State :=
  let f0 := s.reg .fp
  match (s.setReg .sp f0).pop with
  | .error e => .error e
  | .ok (size, s1) =>
    match (s1.setFs size).pop with
    | .error e => .error e
    | .ok (ra, s2) =>
      match s2.popInto gprs.reverse with
      | .error e => .error e
      | .ok s3 => (s3.setReg .fp (s.wrap (f0 - size - 1))).dropArguments ra

end Sys2Proof.Machine
end

