-- ==== Sys2Proof/Machine/DataMovement.lean ====
section
/-!
DEFINITION. Data movement: LOAD, MOV, PUSH, POP (spec 42_data_movement.md R79 to R82). None writes a flag.
-/

namespace Sys2Proof.Machine

/-- LOAD r, imm (R79): `x[r] <- imm`; FS stays also when `r` is SP or FP. -/
def execLoad (r : Reg) (imm : Int) (s : State) : Host.Outcome State Fault Refusal :=
  .next ((s.advance 3).setReg r (immOperand imm))

/-- MOV rd, rs (R80): `x[rd] <- x[rs]`; FS stays. -/
def execMov (rd rs : Reg) (s : State) : Host.Outcome State Fault Refusal :=
  .next ((s.advance 3).setReg rd (s.regOperand rs))

/-- PUSH r (R81): pushes the value `r` had before the push, also when `r` is SP. -/
def execPush (r : Reg) (s : State) : Host.Outcome State Fault Refusal :=
  commit s ((s.advance 2).push (s.regOperand r))

/-- POP r (R82): `x[r] <- pop()`; the write comes after the pop, so POP SP leaves SP at the popped word. -/
def execPop (r : Reg) (s : State) : Host.Outcome State Fault Refusal :=
  commit s
    (match (s.advance 2).pop with
     | .ok (v, t) => .ok (t.setReg r v)
     | .error e => .error e)

end Sys2Proof.Machine
end

