-- ==== Sys2Proof/Machine/Interrupt.lean ====
section
/-!
DEFINITION. The interrupt dispatcher: INT with its three routines (spec 45_interrupt.md R102 to R108). A code outside 0 to 2
never reaches here: the decoder rejects it (R108; 40_dispatch.md R64, point 4). No routine writes a flag or FS.
-/

namespace Sys2Proof.Machine

/-- The newline code PutString ends with (R105). -/
def newline : Int := 10

/-- `v` is a character code: `0 ≤ v ≤ CHAR_MAX` (R104, R105). -/
abbrev State.isCharacter (s : State) (v : Int) : Prop := 0 ≤ v ∧ v ≤ s.cfg.charMax

/-- PutChar (R104): emits the code in the cell at SP; nothing is popped. `t` is the state to emit into. -/
def State.putChar (t : State) : Except Raise State :=
  match t.memRead (t.reg .sp) with
  | .error e => .error e
  | .ok v => if t.isCharacter v then .ok (t.emit [v]) else .error ⟨.badCharacter, v⟩

/-- The scan of PutString (R105): the codes from cell `a` up to the first zero cell. `fuel` is the number of cells from `a` to
the end of memory; the scan ends at the end of memory at the latest. -/
def State.scanString (s : State) : Nat → Int → Except Raise (List Int)
  | 0, a => .error ⟨.badAddress, a⟩
  | fuel + 1, a =>
    match s.memRead a with
    | .error e => .error e
    | .ok v =>
      if v = 0 then .ok []
      else if s.isCharacter v then
        match s.scanString fuel (a + 1) with
        | .ok cs => .ok (v :: cs)
        | .error e => .error e
      else .error ⟨.badCharacter, v⟩

/-- PutString (R105): the whole string is checked before any code is emitted; then its codes and a newline are. -/
def State.putString (t : State) : Except Raise State :=
  let a := t.reg .sp
  match t.scanString ((t.cfg.memSize : Int) - a).toNat a with
  | .ok cs => .ok (t.emit (cs ++ [newline]))
  | .error e => .error e

/-- ReadLine, first phase (R106): suspends the core; `fpc`, the address of this INT, is kept. -/
def State.readLineSuspend (t : State) (fpc : Int) : State := t.setRun (.suspended (.input fpc))

/-- ReadLine, second phase (R107), when the host has delivered `line`: writes it at SP, appends a zero, advances SP past both
and resumes; FS is unchanged. -/
def State.readLineStore (s : State) (line : List Int) : Except Raise State :=
  let sp := s.reg .sp
  let k : Int := line.length
  if sp < 0 then .error ⟨.badAddress, sp⟩
  else if sp + k ≥ s.cfg.memSize then .error ⟨.badAddress, max sp s.cfg.memSize⟩
  else
    match s.memWriteList sp (line ++ [0]) with
    | .error e => .error e
    | .ok t => .ok ((t.setReg .sp (sp + k + 1)).setRun .running)

/-- ReadLine, second phase, with its fault (R107): a fault is a fault of the INT at `fpc`, from the state before that INT. -/
def State.readLineDeliver (s : State) (fpc : Int) (line : List Int) : State :=
  match s.readLineStore line with
  | .ok t => t
  | .error e => s.takeFault fpc e

/-- INT c (R102). -/
def execInt (c : IntCode) (s : State) : Host.Outcome State Fault Refusal :=
  match c with
  | .putChar => commit s (s.advance 2).putChar
  | .putString => commit s (s.advance 2).putString
  | .readLine => .next ((s.advance 2).readLineSuspend s.pc)

end Sys2Proof.Machine
end

