-- ==== Sys2Proof/Machine/Transfer.lean ====
section
/-!
DEFINITION. Control transfer: JMP, JZ, JNZ, JE, JNE, CALL, RET (spec 44_control_transfer.md R94 to R101). A target is not
checked: a bad one faults at the next fetch. None writes a flag.
-/

namespace Sys2Proof.Machine

/-- JMP t (R94). -/
def execJmp (t : Int) (s : State) : Host.Outcome State Fault Refusal := .next (s.jumpIf true t)

/-- JZ t (R95): taken when ZF = 1. -/
def execJz (t : Int) (s : State) : Host.Outcome State Fault Refusal := .next (s.jumpIf s.condZ t)

/-- JNZ t (R96): taken when ZF = 0. -/
def execJnz (t : Int) (s : State) : Host.Outcome State Fault Refusal := .next (s.jumpIf s.condNz t)

/-- JE t (R97): taken when EF = 1. -/
def execJe (t : Int) (s : State) : Host.Outcome State Fault Refusal := .next (s.jumpIf s.condE t)

/-- JNE t (R98): taken when EF = 0. -/
def execJne (t : Int) (s : State) : Host.Outcome State Fault Refusal := .next (s.jumpIf s.condNe t)

/-- CALL t (R99): enters a frame with `pc` already past the operand word (the return address), jumps and counts the call. -/
def execCall (t : Int) (s : State) : Host.Outcome State Fault Refusal :=
  commit s
    (match (s.advance 2).enter with
     | .ok u => .ok ((u.setPc (targetOperand t)).setCd (u.cd + 1))
     | .error e => .error e)

/-- RET (R100): faults UnbalancedReturn when no CALL is outstanding, otherwise leaves the frame. -/
def execRet (s : State) : Host.Outcome State Fault Refusal :=
  commit s
    (if s.cd = 0 then .error ⟨.unbalancedReturn, 0⟩
     else
      match (s.advance 1).leave with
      | .ok u => .ok (u.setCd (u.cd - 1))
      | .error e => .error e)

end Sys2Proof.Machine
end

