-- ==== Sys2Proof/Machine/Dispatch.lean ====
section
/-!
DEFINITION. The handler of each opcode (spec 40_dispatch.md R63): `exec i s` executes `i` from the state `s` before the
instruction began, `s.pc` being the address of its opcode word. Its operands are already fetched and decoded, the register and
interrupt-code checks done (R64; DEDUCED, log entry 12).
-/

namespace Sys2Proof.Machine

/-- One handler per instruction (R63). -/
def exec (i : Instr) (s : State) : Host.Outcome State Fault Refusal :=
  match i with
  | .brk => Sys2Proof.Machine.execBrk s
  | .dbg => Sys2Proof.Machine.execDbg s
  | .load r imm => Sys2Proof.Machine.execLoad r imm s
  | .mov rd rs => Sys2Proof.Machine.execMov rd rs s
  | .push r => Sys2Proof.Machine.execPush r s
  | .pop r => Sys2Proof.Machine.execPop r s
  | .add ra rb => Sys2Proof.Machine.execAdd ra rb s
  | .addi ra imm => Sys2Proof.Machine.execAddi ra imm s
  | .sub ra rb => Sys2Proof.Machine.execSub ra rb s
  | .subi ra imm => Sys2Proof.Machine.execSubi ra imm s
  | .mul ra rb => Sys2Proof.Machine.execMul ra rb s
  | .muli ra imm => Sys2Proof.Machine.execMuli ra imm s
  | .inc r => Sys2Proof.Machine.execInc r s
  | .dec r => Sys2Proof.Machine.execDec r s
  | .cmp rd rs => Sys2Proof.Machine.execCmp rd rs s
  | .clf => Sys2Proof.Machine.execClf s
  | .jmp t => Sys2Proof.Machine.execJmp t s
  | .jz t => Sys2Proof.Machine.execJz t s
  | .jnz t => Sys2Proof.Machine.execJnz t s
  | .je t => Sys2Proof.Machine.execJe t s
  | .jne t => Sys2Proof.Machine.execJne t s
  | .call t => Sys2Proof.Machine.execCall t s
  | .ret => Sys2Proof.Machine.execRet s
  | .int c => Sys2Proof.Machine.execInt c s

end Sys2Proof.Machine
end

