-- ==== Sys2Proof/Decode.lean ====
section
/-!
DEFINITION. Decoding and encoding of instructions (spec 30_encoding.md R45 to R55): the opcode map, the operand formats, the
decoder (total on any list of words, rejecting by name), the encoder, and the reading of an opcode-table number as words.
-/

namespace Sys2Proof

/-- Why a list of words is no instruction, in the order of spec 40_dispatch.md R64. -/
inductive DecodeError where
  /-- The words end before the instruction does. In the machine this is a fetch past the end of memory (R62). -/
  | truncated
  /-- The opcode word is none of 1 to 24 (R53). -/
  | invalidOpcode (w : Int)
  /-- A register operand word is none of 0 to 10 (R48). -/
  | badRegister (w : Int)
  /-- An interrupt code word is none of 0 to 2 (R108). -/
  | badInterrupt (w : Int)
  deriving DecidableEq, Repr

/-! ### Operands -/

/-- `reg(w)` (R48): the register an operand word names, numbered as in spec 10_state.md R15. -/
def regOfWord (w : Int) : Except DecodeError Reg :=
  match w with
  | 0 => .ok .r0
  | 1 => .ok .r1
  | 2 => .ok .r2
  | 3 => .ok .r3
  | 4 => .ok .r4
  | 5 => .ok .r5
  | 6 => .ok .r6
  | 7 => .ok .r7
  | 8 => .ok .ac
  | 9 => .ok .sp
  | 10 => .ok .fp
  | _ => .error (.badRegister w)

/-- The index word of a register (spec 10_state.md R15). -/
def Reg.toWord : Reg → Int
  | .r0 => 0
  | .r1 => 1
  | .r2 => 2
  | .r3 => 3
  | .r4 => 4
  | .r5 => 5
  | .r6 => 6
  | .r7 => 7
  | .ac => 8
  | .sp => 9
  | .fp => 10

/-- The interrupt code an operand word stands for (spec 45_interrupt.md R103, R108). -/
def intCodeOfWord (w : Int) : Except DecodeError IntCode :=
  match w with
  | 0 => .ok .putChar
  | 1 => .ok .putString
  | 2 => .ok .readLine
  | _ => .error (.badInterrupt w)

/-- The word of an interrupt code (spec 45_interrupt.md R103). -/
def IntCode.toWord : IntCode → Int
  | .putChar => 0
  | .putString => 1
  | .readLine => 2

/-! ### Formats and the opcode map -/

/-- The four operand kinds (R47). -/
inductive OperandKind where
  | register | immediate | target | interruptCode
  deriving DecidableEq, Repr

/-- The six formats (R51). -/
inductive Format where
  | f0 | f1r | f1t | f1c | f2rr | f2ri
  deriving DecidableEq, Repr

/-- The kinds of a format's operand words, word 1 first (R51). -/
def Format.operands : Format → List OperandKind
  | .f0 => []
  | .f1r => [.register]
  | .f1t => [.target]
  | .f1c => [.interruptCode]
  | .f2rr => [.register, .register]
  | .f2ri => [.register, .immediate]

/-- The number of operand words after the opcode word (R45). -/
def Format.arity (f : Format) : Nat := f.operands.length

/-- A row of the opcode map (R52) by name: what an assembler and a debug surface look up. -/
structure OpcodeRow where
  opcode : Int
  mnemonic : String
  format : Format
  deriving DecidableEq, Repr

/-- The complete opcode map (R52). -/
def opcodeMap : List OpcodeRow :=
  [⟨1, "BRK", .f0⟩, ⟨2, "DBG", .f0⟩, ⟨3, "LOAD", .f2ri⟩, ⟨4, "MOV", .f2rr⟩, ⟨5, "PUSH", .f1r⟩, ⟨6, "POP", .f1r⟩,
   ⟨7, "ADD", .f2rr⟩, ⟨8, "ADDI", .f2ri⟩, ⟨9, "SUB", .f2rr⟩, ⟨10, "SUBI", .f2ri⟩, ⟨11, "MUL", .f2rr⟩, ⟨12, "MULI", .f2ri⟩,
   ⟨13, "INC", .f1r⟩, ⟨14, "DEC", .f1r⟩, ⟨15, "CMP", .f2rr⟩, ⟨16, "CLF", .f0⟩, ⟨17, "JMP", .f1t⟩, ⟨18, "JZ", .f1t⟩,
   ⟨19, "JNZ", .f1t⟩, ⟨20, "JE", .f1t⟩, ⟨21, "JNE", .f1t⟩, ⟨22, "CALL", .f1t⟩, ⟨23, "RET", .f0⟩, ⟨24, "INT", .f1c⟩]

/-- An opcode's format together with the instruction its decoded operands make. -/
inductive Form where
  | f0 (i : Instr)
  | f1r (mk : Reg → Instr)
  | f1t (mk : Int → Instr)
  | f1c (mk : IntCode → Instr)
  | f2rr (mk : Reg → Reg → Instr)
  | f2ri (mk : Reg → Int → Instr)

/-- The format of a form. -/
def Form.format : Form → Format
  | .f0 _ => .f0
  | .f1r _ => .f1r
  | .f1t _ => .f1t
  | .f1c _ => .f1c
  | .f2rr _ => .f2rr
  | .f2ri _ => .f2ri

/-- The opcode lookup (R52, R53): every value not in the map is no opcode, 0 and the negative words among them. -/
def opcodeForm (op : Int) : Option Form :=
  match op with
  | 1 => some (.f0 .brk)
  | 2 => some (.f0 .dbg)
  | 3 => some (.f2ri .load)
  | 4 => some (.f2rr .mov)
  | 5 => some (.f1r .push)
  | 6 => some (.f1r .pop)
  | 7 => some (.f2rr .add)
  | 8 => some (.f2ri .addi)
  | 9 => some (.f2rr .sub)
  | 10 => some (.f2ri .subi)
  | 11 => some (.f2rr .mul)
  | 12 => some (.f2ri .muli)
  | 13 => some (.f1r .inc)
  | 14 => some (.f1r .dec)
  | 15 => some (.f2rr .cmp)
  | 16 => some (.f0 .clf)
  | 17 => some (.f1t .jmp)
  | 18 => some (.f1t .jz)
  | 19 => some (.f1t .jnz)
  | 20 => some (.f1t .je)
  | 21 => some (.f1t .jne)
  | 22 => some (.f1t .call)
  | 23 => some (.f0 .ret)
  | 24 => some (.f1c .int)
  | _ => none

/-! ### Decoding -/

/-- Reads the operand words of a form and decodes them in word order: all operand words must be there before any is decoded
(spec 40_dispatch.md R64, points 3 and 4). Answers the instruction and the words after it. -/
def decodeOperands (f : Form) (ws : List Int) : Except DecodeError (Instr × List Int) :=
  match f with
  | .f0 i => .ok (i, ws)
  | .f1r mk =>
    match ws with
    | [] => .error .truncated
    | w1 :: rest =>
      match regOfWord w1 with
      | .error e => .error e
      | .ok r => .ok (mk r, rest)
  | .f1t mk =>
    match ws with
    | [] => .error .truncated
    | w1 :: rest => .ok (mk w1, rest)
  | .f1c mk =>
    match ws with
    | [] => .error .truncated
    | w1 :: rest =>
      match intCodeOfWord w1 with
      | .error e => .error e
      | .ok c => .ok (mk c, rest)
  | .f2rr mk =>
    match ws with
    | [] | [_] => .error .truncated
    | w1 :: w2 :: rest =>
      match regOfWord w1 with
      | .error e => .error e
      | .ok a =>
        match regOfWord w2 with
        | .error e => .error e
        | .ok b => .ok (mk a b, rest)
  | .f2ri mk =>
    match ws with
    | [] | [_] => .error .truncated
    | w1 :: w2 :: rest =>
      match regOfWord w1 with
      | .error e => .error e
      | .ok r => .ok (mk r w2, rest)

/-- The decoder (R55): reads the opcode word, looks up its format, reads exactly that many operand words and decodes them. -/
def decode : List Int → Except DecodeError (Instr × List Int)
  | [] => .error .truncated
  | op :: ws =>
    match opcodeForm op with
    | none => .error (.invalidOpcode op)
    | some f => decodeOperands f ws

/-! ### Encoding -/

/-- The opcode word of an instruction (R52). -/
def Instr.opcode : Instr → Int
  | .brk => 1
  | .dbg => 2
  | .load _ _ => 3
  | .mov _ _ => 4
  | .push _ => 5
  | .pop _ => 6
  | .add _ _ => 7
  | .addi _ _ => 8
  | .sub _ _ => 9
  | .subi _ _ => 10
  | .mul _ _ => 11
  | .muli _ _ => 12
  | .inc _ => 13
  | .dec _ => 14
  | .cmp _ _ => 15
  | .clf => 16
  | .jmp _ => 17
  | .jz _ => 18
  | .jnz _ => 19
  | .je _ => 20
  | .jne _ => 21
  | .call _ => 22
  | .ret => 23
  | .int _ => 24

/-- The operand words of an instruction, word 1 first (R51). -/
def Instr.operandWords : Instr → List Int
  | .brk | .dbg | .clf | .ret => []
  | .push r | .pop r | .inc r | .dec r => [r.toWord]
  | .jmp t | .jz t | .jnz t | .je t | .jne t | .call t => [t]
  | .int c => [c.toWord]
  | .mov a b | .add a b | .sub a b | .mul a b | .cmp a b => [a.toWord, b.toWord]
  | .load r v | .addi r v | .subi r v | .muli r v => [r.toWord, v]

/-- The words of an instruction, lowest address first (R45, R51, R52, R59). -/
def encode (i : Instr) : List Int := i.opcode :: i.operandWords

/-! ### An opcode-table number as words

The table gives a row no bits: its words are as wide as the machine's, and with `W = ∞` a word has no width. DESIGN CHOICE
(log entry 8): a number stands for up to three words in slots of 32 bits, word 0 in bits 31..0, each slot read as a two's
complement integer. -/

/-- The signed integer in 32-bit slot `k` of `w`. -/
def tableSlot (w k : Nat) : Int :=
  let v : Nat := w / 2 ^ (32 * k) % 2 ^ 32
  if v < 2 ^ 31 then (v : Int) else (v : Int) - 2 ^ 32

/-- The three words (the longest instruction) of an opcode-table number of `nbits` bits; the bits at and above `nbits` are 0. -/
def tableWords (nbits w : Nat) : List Int :=
  let v := w % 2 ^ nbits
  [tableSlot v 0, tableSlot v 1, tableSlot v 2]

/-- The instruction the decoder reads from the opcode-table number `w` of `nbits` bits. -/
def decodeTableWord (nbits w : Nat) : Option Instr :=
  match decode (tableWords nbits w) with
  | .ok (i, _) => some i
  | .error _ => none

end Sys2Proof
end

