-- ==== Sys2Proof/Machine/Fetch.lean ====
section
/-!
DEFINITION. Fetching an instruction (spec 40_dispatch.md R62 to R64): opcode fetch, opcode lookup, operand fetches, operand
decoding, in that order, the first fault found being the one reported.
-/

namespace Sys2Proof.Machine

/-- `fetch()` (R62): the word at `pc`, and the state with `pc` one further. -/
def State.fetch (s : State) : Except Raise (Int × State) :=
  if s.pc ≥ s.cfg.memSize then .error ⟨.endOfMemory, s.pc⟩
  else if s.pc < 0 then .error ⟨.badAddress, s.pc⟩
  else .ok (s.cell s.pc, s.setPc (s.pc + 1))

/-- The operand fetches, word 1 first (R64, point 3). -/
def State.fetchMany (s : State) : Nat → Except Raise (List Int × State)
  | 0 => .ok ([], s)
  | n + 1 =>
    match s.fetch with
    | .error e => .error e
    | .ok (w, t) =>
      match t.fetchMany n with
      | .error e => .error e
      | .ok (ws, u) => .ok (w :: ws, u)

/-- The fault an undecodable instruction raises (30_encoding.md R48, R53, 45_interrupt.md R108). `next` is the address after the
words read, where a missing word would be fetched (R62); the dispatcher reads as many words as the format has, so it never meets
`truncated`. -/
def raiseOfDecodeError (next : Int) : DecodeError → Raise
  | .truncated => ⟨.endOfMemory, next⟩
  | .invalidOpcode w => ⟨.invalidOpcode, w⟩
  | .badRegister w => ⟨.badRegister, w⟩
  | .badInterrupt w => ⟨.badInterrupt, w⟩

/-- The instruction at `pc`, or the fault its fetch and decoding raise (R63, R64, points 1 to 4). -/
def State.fetchInstr (s : State) : Except Raise Instr :=
  match s.fetch with
  | .error e => .error e
  | .ok (op, s1) =>
    match opcodeForm op with
    | none => .error ⟨.invalidOpcode, op⟩
    | some f =>
      match s1.fetchMany f.format.arity with
      | .error e => .error e
      | .ok (ws, s2) =>
        match decodeOperands f ws with
        | .ok (i, _) => .ok i
        | .error e => .error (raiseOfDecodeError s2.pc e)

/-- Stores words at `a` and the cells after it, each brought into `V_W`; a word that would lie outside memory is dropped. The
model's own loader for `State.withFetchWord` (DESIGN CHOICE, log entry 9); a host loads through `hostLoad`. -/
def State.placeWords (s : State) (a : Int) : List Int → State
  | [] => s
  | w :: ws => (if s.isAddress a then s.setCell a (s.wrap w) else s).placeWords (a + 1) ws

end Sys2Proof.Machine
end

