-- ==== Sys2Proof/Machine/HostPort.lean ====
section
/-!
DEFINITION. The host interface (spec 60_exceptions.md R123 to R132): each boundary operation as a function that answers the new
state, or `none` where the operation is refused; the host's turn, in which the operations pending in the state are taken; and
the read accessors.
-/

namespace Sys2Proof.Machine

/-- Load(offset, words) (R124): in Ready only, within `[0, N)`, every word in `V_W`; writes `words[i]` to cell `offset + i`. -/
def hostLoad (offset : Int) (words : List Int) (s : State) : Option State :=
  if s.run = .ready ∧ 0 ≤ offset ∧ offset + words.length ≤ s.cfg.memSize ∧ words.all s.cfg.wordBits.contains then
    match s.memWriteList offset words with
    | .ok t => some t
    | .error _ => none
  else none

/-- Seed(offset, codes) (R124): the same operation on the core as Load. -/
def hostSeed (offset : Int) (codes : List Int) (s : State) : Option State := hostLoad offset codes s

/-- SetEntry(a) (R125): in Ready only; `a` is not checked against the memory. A value that is no word of `V_W` is refused
(DESIGN CHOICE, log entry 11; it concerns finite `W` only). -/
def hostSetEntry (a : Int) (s : State) : Option State :=
  if s.run = .ready ∧ s.cfg.inDomain a then some (s.setPc a) else none

/-- Run (40_dispatch.md R67): Ready to Running. -/
def hostRun (s : State) : Option State := if s.run = .ready then some (s.setRun .running) else none

/-- A line DeliverLine accepts (R129): every code in `[1, CHAR_MAX]`. A code that is no word of `V_W` cannot be stored and is
refused like one (DESIGN CHOICE, log entry 10; it concerns finite `W` only). -/
def State.acceptsLine (s : State) (line : List Int) : Bool :=
  line.all fun c => decide (1 ≤ c) && decide (c ≤ s.cfg.charMax) && s.cfg.wordBits.contains c

/-- DeliverLine(L) (R129), in Suspended(Input) only: the second phase of INT 2 (45_interrupt.md R107). -/
def hostDeliverLine (line : List Int) (s : State) : Option State :=
  match s.run with
  | .suspended (.input fpc) => if s.acceptsLine line then some (s.readLineDeliver fpc line) else none
  | _ => none

/-- Continue (R130), in Suspended(Debug) only: execution resumes at `pc`. -/
def hostResume (s : State) : Option State :=
  if s.run = .suspended .debug then some (s.setRun .running) else none

/-- Terminate (R130), in Suspended(Debug) only. -/
def hostTerminate (s : State) : Option State :=
  if s.run = .suspended .debug then some (s.setRun (.halted .debugTerminate)) else none

/-- One boundary operation (R123); `none` is a refusal, which changes nothing. -/
def hostAct (op : HostOp) (s : State) : Option State :=
  match op with
  | .load offset words => hostLoad offset words s
  | .seed offset codes => hostSeed offset codes s
  | .setEntry a => hostSetEntry a s
  | .run => hostRun s
  | .deliverLine line => hostDeliverLine line s
  | .resume => hostResume s
  | .terminate => hostTerminate s

/-- The host's turn, taken when the core itself takes no step (40_dispatch.md R70, R66; DESIGN CHOICE, log entries 4, 5): the first pending
operation is done or refused, and the answer returned; with none pending the state stays as it is. -/
def State.hostTurn (s : State) : State :=
  match s.inbox with
  | [] => s
  | op :: rest =>
    match hostAct op s with
    | some t => { t with inbox := rest, replies := t.replies ++ [.accepted] }
    | none => { s with inbox := rest, replies := s.replies ++ [.refused] }

/-! ### Read accessors -/

/-- What the host may read (R128). -/
inductive HostQuery where
  | reg (r : Reg)
  | pc
  | ef
  | zf
  | df
  | fs
  | cd
  /-- `k` cells from address `a` on. -/
  | cells (a : Int) (k : Nat)
  | run
  | out
  deriving DecidableEq, Repr

/-- What a read accessor returns. -/
inductive HostAnswer where
  | word (v : Int)
  | flag (b : Bool)
  | count (n : Nat)
  | words (vs : List Int)
  | runState (r : RunState)
  deriving DecidableEq, Repr

/-- The read accessors (R128), allowed in every run state and without effect; cells outside `[0, N)` are refused (DEDUCED from
R123 and 20_memory.md R32, log entry 14). -/
def hostRead (q : HostQuery) (s : State) : Option HostAnswer :=
  match q with
  | .reg r => some (.word (s.reg r))
  | .pc => some (.word s.pc)
  | .ef => some (.flag s.ef)
  | .zf => some (.flag s.zf)
  | .df => some (.flag s.df)
  | .fs => some (.word s.fs)
  | .cd => some (.count s.cd)
  | .cells a k =>
    if 0 ≤ a ∧ a + k ≤ s.cfg.memSize then some (.words ((List.range k).map fun i : Nat => s.cell (a + i))) else none
  | .run => some (.runState s.run)
  | .out => some (.words s.out)

/-- The debug surface's view of the current call frame's saved words (R127): the ten cells below FP (41_stack_frame.md R76),
saved R0 first, then R1 to R7, the return address and the saved frame size. -/
def hostFrame (s : State) : Option HostAnswer := hostRead (.cells (s.reg .fp - 10) 10) s

/-- `a` brought into `[0, N]`. -/
def State.clampAddress (s : State) (a : Int) : Int := max 0 (min a s.cfg.memSize)

/-- The address of the first cell of a stack window with `below` cells below SP. -/
def State.stackWindowStart (s : State) (below : Nat) : Int := s.clampAddress (s.reg .sp - below)

/-- The debug surface's stack window, around SP (R127): the `below` cells below SP, the cell at SP and the `above` cells above it,
as far as they lie in memory. How wide the window is and that it is cut at the ends of memory is open (DESIGN CHOICE, log
entry 18). -/
def hostStackWindow (below above : Nat) (s : State) : Option HostAnswer :=
  let first := s.stackWindowStart below
  hostRead (.cells first (s.clampAddress (s.reg .sp + above + 1) - first).toNat) s

/-- The debug surface's mnemonic at `pc`, when possible (R127): a lookup of the cell at `pc` in the opcode map. -/
def hostMnemonic (s : State) : Option String :=
  if s.isAddress s.pc then (opcodeMap.find? fun row => row.opcode == s.cell s.pc).map OpcodeRow.mnemonic else none

end Sys2Proof.Machine
end

