-- ==== Sys2Proof/Machine/Step.lean ====
section
/-!
DEFINITION. One step (spec 40_dispatch.md R63, R65): while Running, one whole instruction; otherwise the host's turn.
-/

namespace Sys2Proof.Machine

/-- One step of the machine. Running: the instruction at `pc` is fetched, decoded and executed, or its fault is taken (R63). In
every other run state the core itself takes no step (R66, R70): the host's next operation is taken, if one is pending. -/
def step (s : State) : Host.Outcome State Fault Refusal :=
  match s.run with
  | .running =>
    match s.fetchInstr with
    | .ok i => exec i s
    | .error e => .next (s.takeFault s.pc e)
  | .ready => .next s.hostTurn
  | .suspended _ => .next s.hostTurn
  | .halted _ => .next s.hostTurn
  | .faulted _ => .next s.hostTurn

/-- `s` with the instruction of an opcode-table number stored at `pc` and the run state Running, so that the very next step
runs it: it stands for the host's Load and Run (60_exceptions.md R124, 40_dispatch.md R67; DESIGN CHOICE, log entry 9). -/
def State.withFetchWord (s : State) (nbits w : Nat) : State :=
  (s.placeWords s.pc (tableWords nbits w)).setRun .running

end Sys2Proof.Machine
end

