-- ==== Sys2Proof/Machine/Assembler.lean ====
section
/-!
DEFINITION. The assembler syntax of spec 30_encoding.md R56 to R58, as a function from text to the words of a program image. The
core does not contain it: it says which words a line of assembly stands for. A text is a list of characters. What R57 leaves
open is the model's choice and marked where it is settled: a label defined twice, a label with no instruction after it and a malformed
number are refused by name (DESIGN CHOICE, log entry 17), what a label name may be is log entry 19, and which odd spacings and
separators are taken is log entry 20.
-/

namespace Sys2Proof.Assembler

/-- Why a text is refused (R57). -/
inductive AsmError where
  | unknownMnemonic (name : List Char)
  | wrongOperandCount (name : List Char)
  | notARegister (text : List Char)
  | undefinedLabel (name : List Char)
  /-- An immediate or an interrupt code that is no signed decimal integer (log entry 17). -/
  | notANumber (text : List Char)
  /-- The same label is defined twice (log entry 17). -/
  | duplicateLabel (name : List Char)
  /-- A label stands before no instruction (log entry 17). -/
  | labelWithoutInstruction (name : List Char)
  deriving DecidableEq, Repr

/-- A piece of a program: a label definition, or a mnemonic with its operand texts. -/
inductive Item where
  | label (name : List Char)
  | instruction (mnemonic : List Char) (operands : List (List Char))
  deriving DecidableEq, Repr

/-! ### From text to items -/

/-- A line without its comment, which runs from the first `;;` to the end of the line. -/
def cutComment : List Char → List Char
  | [] => []
  | ';' :: ';' :: _ => []
  | c :: cs => c :: cutComment cs

/-- The separator `, ` (R57) written as a space. It is one wherever it stands, doubled, leading and trailing ones too (DESIGN
CHOICE, log entry 20). -/
def commaToSpace : List Char → List Char
  | [] => []
  | ',' :: ' ' :: cs => ' ' :: commaToSpace cs
  | c :: cs => c :: commaToSpace cs

/-- The words of one statement, separated by spaces or by `, ` (R57). A `, ` in a row with other separators, and any separator before
the first word or after the last one, is skipped (DESIGN CHOICE, log entry 20). -/
def tokens (statement : List Char) : List (List Char) :=
  ((commaToSpace statement).splitOn ' ').filter fun t => !t.isEmpty

/-- The label name a token defines: a name followed by a colon (R57). R57 gives names no grammar: any nonempty text that is one token
is a name here, a register's name, a mnemonic, a number or a text with a colon in it too (DESIGN CHOICE, log entry 19). -/
def labelName (token : List Char) : Option (List Char) :=
  if token.getLast? = some ':' ∧ 2 ≤ token.length then some token.dropLast else none

/-- The items of one statement: any number of labels, then at most one instruction. That more than one label may stand before an
instruction, and that a label may stand in a statement with no instruction, is open (DESIGN CHOICE, log entry 19). -/
def itemsOfTokens : List (List Char) → List Item
  | [] => []
  | t :: ts =>
    match labelName t with
    | some n => .label n :: itemsOfTokens ts
    | none => [.instruction t ts]

/-- The items of a text: one statement a line, or several separated by `;` (R57). A statement with no word in it has no item (DESIGN
CHOICE, log entry 20). -/
def items (src : List Char) : List Item :=
  (src.splitOn '\n').flatMap fun line =>
    ((cutComment line).splitOn ';').flatMap fun statement => itemsOfTokens (tokens statement)

/-! ### Names and numbers -/

/-- The register names (R57) and their indices (10_state.md R15). -/
def registerNames : List (String × Int) :=
  [("R0", 0), ("R1", 1), ("R2", 2), ("R3", 3), ("R4", 4), ("R5", 5), ("R6", 6), ("R7", 7), ("AC", 8), ("SP", 9), ("FP", 10)]

/-- The index of a register name. -/
def registerIndex (text : List Char) : Option Int :=
  (registerNames.find? fun p => p.1.toList == text).map Prod.snd

/-- The value of a list of decimal digits, `acc` being that of the digits before it. -/
def digitsValue (acc : Nat) : List Char → Option Nat
  | [] => some acc
  | c :: cs =>
    if 48 ≤ c.toNat ∧ c.toNat ≤ 57 then digitsValue (10 * acc + (c.toNat - 48)) cs else none

/-- The value of a nonempty list of decimal digits. -/
def naturalValue : List Char → Option Nat
  | [] => none
  | c :: cs => digitsValue 0 (c :: cs)

/-- The value of a signed decimal integer: decimal digits after a `-`, a `+` or no sign (R57). That `+` is a sign too is open (DESIGN
CHOICE, log entry 17). -/
def integerValue : List Char → Option Int
  | '-' :: cs => (naturalValue cs).map fun n : Nat => -(n : Int)
  | '+' :: cs => (naturalValue cs).map fun n : Nat => (n : Int)
  | cs => (naturalValue cs).map fun n : Nat => (n : Int)

/-- The row a mnemonic stands for (30_encoding.md R52); `HALT` is the one pseudo-instruction and stands for `BRK` (R58). -/
def rowOf (mnemonic : List Char) : Option OpcodeRow :=
  let name := if mnemonic = "HALT".toList then "BRK".toList else mnemonic
  opcodeMap.find? fun row => row.mnemonic.toList == name

/-! ### The two passes -/

/-- The labels with the addresses of the instructions they stand before; `waiting` holds the labels met since the last
instruction, `a` is the address of the next opcode word. -/
def labelAddresses (a : Int) (waiting : List (List Char)) : List Item → Except AsmError (List (List Char × Int))
  | [] =>
    match waiting with
    | [] => .ok []
    | n :: _ => .error (.labelWithoutInstruction n)
  | .label n :: rest => labelAddresses a (waiting ++ [n]) rest
  | .instruction m _ :: rest =>
    match rowOf m with
    | none => .error (.unknownMnemonic m)
    | some row =>
      match labelAddresses (a + 1 + row.format.arity) [] rest with
      | .ok ls => .ok (waiting.map (fun n => (n, a)) ++ ls)
      | .error e => .error e

/-- The first label defined twice. -/
def firstDuplicate : List (List Char × Int) → Option (List Char)
  | [] => none
  | (n, _) :: rest => if rest.any (fun p => p.1 == n) then some n else firstDuplicate rest

/-- The word of one operand (R57). -/
def operandWord (labels : List (List Char × Int)) (k : OperandKind) (text : List Char) : Except AsmError Int :=
  match k with
  | .register =>
    match registerIndex text with
    | some w => .ok w
    | none => .error (.notARegister text)
  | .immediate | .interruptCode =>
    match integerValue text with
    | some w => .ok w
    | none => .error (.notANumber text)
  | .target =>
    match integerValue text with
    | some w => .ok w
    | none =>
      match labels.find? (fun p => p.1 == text) with
      | some p => .ok p.2
      | none => .error (.undefinedLabel text)

/-- The words of an instruction's operands, in word order; `m` is its mnemonic. -/
def operandWords (labels : List (List Char × Int)) (m : List Char) :
    List OperandKind → List (List Char) → Except AsmError (List Int)
  | [], [] => .ok []
  | k :: ks, t :: ts =>
    match operandWord labels k t with
    | .error e => .error e
    | .ok w =>
      match operandWords labels m ks ts with
      | .ok ws => .ok (w :: ws)
      | .error e => .error e
  | [], _ :: _ => .error (.wrongOperandCount m)
  | _ :: _, [] => .error (.wrongOperandCount m)

/-- The words of the items, in order; a label stands for no word. -/
def itemWords (labels : List (List Char × Int)) : List Item → Except AsmError (List Int)
  | [] => .ok []
  | .label _ :: rest => itemWords labels rest
  | .instruction m ops :: rest =>
    match rowOf m with
    | none => .error (.unknownMnemonic m)
    | some row =>
      match operandWords labels m row.format.operands ops with
      | .error e => .error e
      | .ok ws =>
        match itemWords labels rest with
        | .ok vs => .ok (row.opcode :: (ws ++ vs))
        | .error e => .error e

/-- The program image of a text whose first word will be loaded at `origin` (R57, R60). -/
def assemble (origin : Int) (src : List Char) : Except AsmError (List Int) :=
  match labelAddresses origin [] (items src) with
  | .error e => .error e
  | .ok labels =>
    match firstDuplicate labels with
    | some n => .error (.duplicateLabel n)
    | none => itemWords labels (items src)

end Sys2Proof.Assembler
end

