-- ==== Sys2Proof/Safety.lean ====
section
/-!
DEFINITION. The terms in which claims about a run are made: when a run has ended or waits (spec 40_dispatch.md R66, R70), the
state a machine of the spec is always in, the frame invariant (41_stack_frame.md R73), and, for the assembler (30_encoding.md R57),
which words an item of a text stands for and how an instruction is written.
-/

namespace Sys2Proof.Machine

/-- A run has ended (40_dispatch.md R66): Halted or Faulted, the two terminal run states. -/
def State.ended (s : State) : Bool :=
  match s.run with
  | .halted _ | .faulted _ => true
  | .ready | .running | .suspended _ => false

/-- The core waits for the host (40_dispatch.md R70, 60_exceptions.md R134): Ready or Suspended; this is no end of run. -/
def State.waits (s : State) : Bool :=
  match s.run with
  | .ready | .suspended _ => true
  | .running | .halted _ | .faulted _ => false

/-- The run took no fault (60_exceptions.md R109). -/
def State.faultFree (s : State) : Bool :=
  match s.run with
  | .faulted _ => false
  | .ready | .running | .suspended _ | .halted _ => true

/-- What the run state says of `pc` and of its own words: a Suspended(Input) core stands two words after its INT 2
(45_interrupt.md R106), a Halted or Suspended(Debug) core after a one-word instruction inside memory (40_dispatch.md R66, R69),
a Faulted one at the faulting instruction (R63), its information a word (10_state.md R25). -/
def State.runConsistent (s : State) : Prop :=
  match s.run with
  | .ready | .running => True
  | .suspended (.input fpc) => 0 ≤ fpc ∧ fpc + 2 ≤ s.cfg.memSize ∧ s.pc = fpc + 2
  | .suspended .debug => 1 ≤ s.pc ∧ s.pc ≤ s.cfg.memSize
  | .halted _ => 1 ≤ s.pc ∧ s.pc ≤ s.cfg.memSize
  | .faulted f => s.pc = f.fpc ∧ s.cfg.inDomain f.info

/-- A state of a machine the spec allows: parameters within R6, memory in its canonical form and inside `[0, N)`, every register,
cell, `pc` and FS a word of `V_W` (00_scope.md R8), DF 0 (10_state.md R23), every emitted code a character code. -/
structure State.Consistent (s : State) : Prop where
  cfg : s.cfg.wf = true
  memForm : s.mem.wf
  memCells : ∀ p ∈ s.mem, p.1 < s.cfg.memSize ∧ s.cfg.inDomain p.2
  regs : ∀ r, s.cfg.inDomain (s.reg r)
  pc : s.cfg.inDomain s.pc
  fs : s.cfg.inDomain s.fs
  df : s.df = false
  out : ∀ c ∈ s.out, s.isCharacter c
  run : s.runConsistent

/-- The words of `i` stand in memory at `pc`, all of them inside memory (30_encoding.md R45, 40_dispatch.md R62). -/
def State.codeAt (s : State) (i : Instr) : Prop :=
  0 ≤ s.pc ∧ s.pc + i.length ≤ s.cfg.memSize ∧ (List.range i.length).map (fun k : Nat => s.cell (s.pc + (k : Int))) = encode i

/-- The frame invariant `SP = FP + FS` (41_stack_frame.md R73), which the core does not check. -/
def State.frameInvariant (s : State) : Prop := s.reg .sp = s.reg .fp + s.fs

end Sys2Proof.Machine

/-! ### Assembly text -/

namespace Sys2Proof

/-- The name an assembler text gives a register (30_encoding.md R57). -/
def Reg.name : Reg → String
  | .r0 => "R0"
  | .r1 => "R1"
  | .r2 => "R2"
  | .r3 => "R3"
  | .r4 => "R4"
  | .r5 => "R5"
  | .r6 => "R6"
  | .r7 => "R7"
  | .ac => "AC"
  | .sp => "SP"
  | .fp => "FP"

/-- The mnemonic of an instruction (30_encoding.md R52). -/
def Instr.mnemonic : Instr → String
  | .brk => "BRK"
  | .dbg => "DBG"
  | .load _ _ => "LOAD"
  | .mov _ _ => "MOV"
  | .push _ => "PUSH"
  | .pop _ => "POP"
  | .add _ _ => "ADD"
  | .addi _ _ => "ADDI"
  | .sub _ _ => "SUB"
  | .subi _ _ => "SUBI"
  | .mul _ _ => "MUL"
  | .muli _ _ => "MULI"
  | .inc _ => "INC"
  | .dec _ => "DEC"
  | .cmp _ _ => "CMP"
  | .clf => "CLF"
  | .jmp _ => "JMP"
  | .jz _ => "JZ"
  | .jnz _ => "JNZ"
  | .je _ => "JE"
  | .jne _ => "JNE"
  | .call _ => "CALL"
  | .ret => "RET"
  | .int _ => "INT"

/-- A signed decimal integer, with no sign when it is not negative. -/
def decimalText (v : Int) : List Char :=
  if v < 0 then '-' :: Nat.toDigits 10 v.natAbs else Nat.toDigits 10 v.natAbs

/-- The operands as text, word 1 first: registers by name, all others as numbers (30_encoding.md R57). -/
def Instr.operandTexts : Instr → List (List Char)
  | .brk | .dbg | .clf | .ret => []
  | .push r | .pop r | .inc r | .dec r => [r.name.toList]
  | .jmp t | .jz t | .jnz t | .je t | .jne t | .call t => [decimalText t]
  | .int c => [decimalText c.toWord]
  | .mov a b | .add a b | .sub a b | .mul a b | .cmp a b => [a.name.toList, b.name.toList]
  | .load r v | .addi r v | .subi r v | .muli r v => [r.name.toList, decimalText v]

namespace Assembler

/-- An instruction as text: the mnemonic, a space, and the operands separated by `, ` or by a space (30_encoding.md R57). -/
def instrText (comma : Bool) (i : Instr) : List Char :=
  match i.operandTexts with
  | [] => i.mnemonic.toList
  | t :: ts => i.mnemonic.toList ++ ' ' :: (if comma then [',', ' '] else [' ']).intercalate (t :: ts)

/-- A line: instructions separated by `;`, and a comment after `;;` (30_encoding.md R57). -/
def lineText (l : List (Bool × Instr) × List Char) : List Char :=
  [';'].intercalate (l.1.map fun p => instrText p.1 p.2) ++ ';' :: ';' :: l.2

/-- A program as text, one line after the other. -/
def programText (program : List (List (Bool × Instr) × List Char)) : List Char :=
  ['\n'].intercalate (program.map lineText)

/-- The word an operand text of a given kind stands for (30_encoding.md R57): a register name its index, a number its value, a label
in a target's place its address in the table. A target that reads as a number is that number (DESIGN CHOICE, log entry 17). -/
def operandStandsFor (table : List (List Char × Int)) (k : OperandKind) (text : List Char) (w : Int) : Prop :=
  match k with
  | .register => ∃ r : Reg, text = r.name.toList ∧ w = r.toWord
  | .immediate => integerValue text = some w
  | .interruptCode => integerValue text = some w
  | .target => integerValue text = some w ∨ integerValue text = none ∧ (text, w) ∈ table

/-- The words of operand texts of given kinds, one for one. -/
def operandsStandFor (table : List (List Char × Int)) : List OperandKind → List (List Char) → List Int → Prop
  | [], [], [] => True
  | k :: ks, t :: ts, w :: ws => operandStandsFor table k t w ∧ operandsStandFor table ks ts ws
  | _, _, _ => False

/-- The words an item stands for (30_encoding.md R57, R58): a label none; an instruction the opcode of its mnemonic's row, `HALT`
being written for `BRK`, and the words of its operands, as many and of the kinds as the row's format has. -/
def itemStandsFor (table : List (List Char × Int)) : Item → List Int → Prop
  | .label _, ws => ws = []
  | .instruction m ops, ws =>
    ∃ row ∈ opcodeMap, (m = row.mnemonic.toList ∨ m = "HALT".toList ∧ row.mnemonic = "BRK") ∧
      ∃ vs, ws = row.opcode :: vs ∧ operandsStandFor table row.format.operands ops vs

end Assembler
end Sys2Proof
end

