-- ==== Sys2Proof/WellFormed.lean ====
section
/-!
DEFINITION. Which instructions a machine with given parameters can hold in its memory. Registers and interrupt codes are typed
(spec 30_encoding.md R48, R108), so what is left to check is that an immediate or a target is a word of `V_W` (R46, R49, R50).
-/

namespace Sys2Proof

/-- The instruction's immediate or target is a word of `V_W` (R8, R49, R50); with `W = ∞` every instruction is well formed. -/
def wellFormed (c : Config) : Instr → Bool
  | .load _ imm => c.wordBits.contains imm
  | .addi _ imm => c.wordBits.contains imm
  | .subi _ imm => c.wordBits.contains imm
  | .muli _ imm => c.wordBits.contains imm
  | .jmp t => c.wordBits.contains t
  | .jz t => c.wordBits.contains t
  | .jnz t => c.wordBits.contains t
  | .je t => c.wordBits.contains t
  | .jne t => c.wordBits.contains t
  | .call t => c.wordBits.contains t
  | .brk | .dbg | .clf | .ret => true
  | .mov _ _ | .add _ _ | .sub _ _ | .mul _ _ | .cmp _ _ => true
  | .push _ | .pop _ | .inc _ | .dec _ => true
  | .int _ => true

end Sys2Proof
end

