-- ==== Sys2Proof/Certificates/Slice0/Obligations.lean ====
section
/-!
DEFINITION. The statements for the provers, from the numbered rules of spec/. A state `s` that an instruction `i` runs in is the
state before the instruction began: `s.pc` is the address of its opcode word. The memory frame is said through the reading of one
cell, `State.cell`; `s.isAddress a` is `0 ≤ a < N`.
-/

open Sys2Proof Sys2Proof.Machine

/-! ### Encoding -/

/-- The decoder reads every instruction back from its encoding, whatever words follow (R51, R52, R55): no bit is dropped. -/
def Obligations.DecodeReadsBackWhatEncodeWrites : Prop :=
  ∀ (i : Instr) (rest : List Int), decode (encode i ++ rest) = .ok (i, rest)

/-- The decoder accepts only encodings: what it reads as an instruction is exactly that instruction's words (R46, R52). -/
def Obligations.DecodeAcceptsOnlyEncodings : Prop :=
  ∀ (ws : List Int) (i : Instr) (rest : List Int), decode ws = .ok (i, rest) → ws = encode i ++ rest

/-- R53: exactly the opcode words 1 to 24 are opcodes; every other one is rejected by the decoder, and ends a run with
InvalidOpcode, the word being its information. -/
def Obligations.EveryOtherOpcodeIsInvalid : Prop :=
  (∀ (op : Int) (ws : List Int), decode (op :: ws) = .error (.invalidOpcode op) ↔ op < 1 ∨ 24 < op) ∧
  ∀ s : State, s.run = .running → s.isAddress s.pc → (s.cell s.pc < 1 ∨ 24 < s.cell s.pc) →
    step s = .next { s with run := .faulted ⟨.invalidOpcode, s.cell s.pc, s.pc⟩ }

/-- R15, R48: register operand words 0 to 7 name R0 to R7, 8 names AC, 9 SP and 10 FP; `Reg.toWord` is the same numbering; and every
other word is BadRegister. -/
def Obligations.RegisterOperandsAreZeroToTen : Prop :=
  (regOfWord 0 = .ok .r0 ∧ regOfWord 1 = .ok .r1 ∧ regOfWord 2 = .ok .r2 ∧ regOfWord 3 = .ok .r3 ∧ regOfWord 4 = .ok .r4 ∧
    regOfWord 5 = .ok .r5 ∧ regOfWord 6 = .ok .r6 ∧ regOfWord 7 = .ok .r7 ∧ regOfWord 8 = .ok .ac ∧ regOfWord 9 = .ok .sp ∧
    regOfWord 10 = .ok .fp) ∧
  (∀ (w : Int) (r : Reg), regOfWord w = .ok r ↔ r.toWord = w) ∧
  (∀ w : Int, (0 ≤ w ∧ w ≤ 10) ↔ ∃ r : Reg, r.toWord = w) ∧
  ∀ w : Int, w < 0 ∨ 10 < w → regOfWord w = .error (.badRegister w)

/-- R59: the encodings of the source's own examples, in both directions. A check of a few words written out from the spec. -/
def Obligations.SourceExamplesHaveTheirWords : Prop :=
  (decode [3, 1, 2] = .ok (.load .r1 2, []) ∧ encode (.load .r1 2) = [3, 1, 2]) ∧
  (decode [13, 1] = .ok (.inc .r1, []) ∧ encode (.inc .r1) = [13, 1]) ∧
  (decode [22, 8] = .ok (.call 8, []) ∧ encode (.call 8) = [22, 8]) ∧
  (decode [1] = .ok (.brk, []) ∧ encode .brk = [1]) ∧
  (decode [6, 4] = .ok (.pop .r4, []) ∧ encode (.pop .r4) = [6, 4]) ∧
  (decode [23] = .ok (.ret, []) ∧ encode .ret = [23]) ∧
  (decode [4, 0, 9] = .ok (.mov .r0 .sp, []) ∧ encode (.mov .r0 .sp) = [4, 0, 9]) ∧
  (decode [4, 9, 0] = .ok (.mov .sp .r0, []) ∧ encode (.mov .sp .r0) = [4, 9, 0]) ∧
  (decode [24, 2] = .ok (.int .readLine, []) ∧ encode (.int .readLine) = [24, 2]) ∧
  (decode [24, 1] = .ok (.int .putString, []) ∧ encode (.int .putString) = [24, 1])

/-- An instruction is well formed exactly when each of its words is a word of `V_W`, so that memory can hold it (R8, R46). -/
def Obligations.WellFormedMeansEveryWordIsInTheDomain : Prop :=
  ∀ (c : Config) (i : Instr), c.wf = true → (wellFormed c i = true ↔ ∀ w ∈ encode i, c.inDomain w)

/-! ### Fetch and step -/

/-- R63: a Running core with the words of `i` at `pc` executes `i`; the step adds nothing around it. -/
def Obligations.StepRunsTheDecodedInstruction : Prop :=
  ∀ (s : State) (i : Instr), s.run = .running → s.codeAt i → step s = exec i s

/-- R62, R64: a fetch at or past the end of memory, of the opcode word or of an operand word, faults EndOfMemory with the
address fetched; an opcode fetch at a negative `pc` faults BadAddress. An operand fetch past the end is found before any operand
is decoded. -/
def Obligations.FetchOutsideMemoryFaults : Prop :=
  ∀ s : State, s.run = .running →
    ((s.cfg.memSize : Int) ≤ s.pc → step s = .next { s with run := .faulted ⟨.endOfMemory, s.pc, s.pc⟩ }) ∧
    (s.pc < 0 → step s = .next { s with run := .faulted ⟨.badAddress, s.pc, s.pc⟩ }) ∧
    ∀ f : Form, s.isAddress s.pc → opcodeForm (s.cell s.pc) = some f → (s.cfg.memSize : Int) ≤ s.pc + f.format.arity →
      step s = .next { s with run := .faulted ⟨.endOfMemory, s.cfg.memSize, s.pc⟩ }

/-- R48, R64, R108: with all words of an instruction inside memory, a first register operand word outside 0 to 10 faults
BadRegister with that word; else so does a second one; an interrupt code outside 0 to 2 faults BadInterrupt. Nothing else
changes. -/
def Obligations.UndecodableOperandsFault : Prop :=
  ∀ (s : State) (f : Form), s.run = .running → 0 ≤ s.pc → s.pc + f.format.arity < s.cfg.memSize →
    opcodeForm (s.cell s.pc) = some f →
    (f.format ∈ [Format.f1r, Format.f2ri, Format.f2rr] → (s.cell (s.pc + 1) < 0 ∨ 10 < s.cell (s.pc + 1)) →
      step s = .next { s with run := .faulted ⟨.badRegister, s.cell (s.pc + 1), s.pc⟩ }) ∧
    (f.format = .f2rr → (0 ≤ s.cell (s.pc + 1) ∧ s.cell (s.pc + 1) ≤ 10) →
      (s.cell (s.pc + 2) < 0 ∨ 10 < s.cell (s.pc + 2)) →
      step s = .next { s with run := .faulted ⟨.badRegister, s.cell (s.pc + 2), s.pc⟩ }) ∧
    (f.format = .f1c → (s.cell (s.pc + 1) < 0 ∨ 2 < s.cell (s.pc + 1)) →
      step s = .next { s with run := .faulted ⟨.badInterrupt, s.cell (s.pc + 1), s.pc⟩ })

/-- Every step answers a next state: the machine never stops by a fault or a refusal of the model's own (R61, R109; that an
ended or a waiting core answers its own state is the model's choice, log entries 5 and 6). -/
def Obligations.EveryStepAnswersANextState : Prop := ∀ s : State, ∃ t, step s = .next t

/-! ### Invariants and whole-machine rules -/

/-- A machine of the spec stays one: parameters within R6, canonical memory inside `[0, N)`, every word in `V_W` (R8), DF 0
(R23), every emitted code a character (R104, R105), the run state in agreement with `pc` (R66, R106, R111). Of what it says, the
model's own choices are: a word is an integer, which a finite W keeps in `V_W` (log entry 3); the list form of memory (log entry 7);
that a delivered code outside `V_W` is refused, so that cells stay in `V_W` (log entry 10); that an entry address outside `V_W` is
refused, so that `pc` stays in it (log entry 11; R125 says the address is not checked); where the address of a waiting INT 2 is
kept (log entry 13); and that the host's operations are taken from a queue (log entry 4). -/
def Obligations.StepKeepsTheMachineConsistent : Prop :=
  ∀ s t : State, s.Consistent → step s = .next t → t.Consistent

/-- A newly constructed machine is consistent, and so is the reset state. -/
def Obligations.ConstructedMachineIsConsistent : Prop :=
  (∀ c : Config, c.wf = true → (State.construct c).Consistent) ∧ State.reset.Consistent

/-- R29: the value of every piece of state when the machine is constructed, for all parameters. -/
def Obligations.ConstructedMachineHasTheResetValues : Prop :=
  ∀ c : Config, (∀ a : Int, (State.construct c).cell a = 0) ∧ (State.construct c).pc = 0 ∧
    (State.construct c).ef = false ∧ (State.construct c).zf = false ∧ (State.construct c).df = false ∧
    (∀ r ∈ gprs, (State.construct c).reg r = 0) ∧ (State.construct c).reg .ac = 0 ∧
    (State.construct c).reg .sp = c.stackBase ∧ (State.construct c).reg .fp = c.stackBase ∧
    (State.construct c).fs = 0 ∧ (State.construct c).cd = 0 ∧ (State.construct c).run = .ready ∧
    (State.construct c).out = []

/-- R66, R109: an ended run is frozen: a step changes no piece of the spec's state. What it does to the model's own queue of
host operations (the first one is refused) is the model's choice, log entries 4 and 5. -/
def Obligations.EndedRunIsFrozen : Prop :=
  ∀ s : State, s.ended = true →
    step s = .next { s with
      inbox := s.inbox.tail, replies := s.replies ++ (if s.inbox = [] then [] else [HostReply.refused]) }

/-- R70, R134: a core that waits, with no host operation to come, stays exactly as it is (a stuck state, log entry 5). -/
def Obligations.WaitingCoreStaysAsItIs : Prop :=
  ∀ s : State, s.waits = true → s.inbox = [] → step s = .next s

/-- R61: the run state changes only along the transitions of the table; a fault is recorded with the address of the instruction
at fault (the INT 2 in progress, for a Suspended(Input) core). -/
def Obligations.RunStateFollowsTheTransitionTable : Prop :=
  ∀ s t : State, step s = .next t →
    match s.run with
    | .ready => t.run = .ready ∨ t.run = .running
    | .running => t.run = .running ∨ t.run = .halted .brk ∨ t.run = .suspended .debug ∨
        t.run = .suspended (.input s.pc) ∨ ∃ k v, t.run = .faulted ⟨k, v, s.pc⟩
    | .suspended (.input p) => t.run = .suspended (.input p) ∨ t.run = .running ∨ ∃ k v, t.run = .faulted ⟨k, v, p⟩
    | .suspended .debug => t.run = .suspended .debug ∨ t.run = .running ∨ t.run = .halted .debugTerminate
    | .halted c => t.run = .halted c
    | .faulted f => t.run = .faulted f

/-- R61, R68, R69, R106: of all instructions only BRK halts a Running core, only DBG suspends it for the debug surface, and only
INT 2 suspends it for input. -/
def Obligations.OnlyBrkHaltsAndOnlyDbgAndReadLineSuspend : Prop :=
  ∀ (i : Instr) (s t : State), s.run = .running → exec i s = .next t →
    ((∃ c, t.run = .halted c) ↔ i = .brk) ∧ (t.run = .suspended .debug ↔ i = .dbg) ∧
    ((∃ p, t.run = .suspended (.input p)) ↔ i = .int .readLine)

/-- R63, R111: a fault is precise. When a step of a Running core faults, the run state is the only change and `fpc` is the
address of the instruction; when an instruction's own rule faults, the same; and when the line delivered to a waiting INT 2
faults it, the state is that before the INT. -/
def Obligations.FaultsAreAllOrNothing : Prop :=
  (∀ (s t : State) (f : FaultRecord), s.run = .running → step s = .next t → t.run = .faulted f →
    f.fpc = s.pc ∧ t = { s with run := .faulted f }) ∧
  (∀ (i : Instr) (s t : State) (f : FaultRecord), s.run = .running → exec i s = .next t → t.run = .faulted f →
    f.fpc = s.pc ∧ t = { s with run := .faulted f }) ∧
  (∀ (s u t : State) (codes : List Int) (f : FaultRecord), exec (.int .readLine) s = .next u →
    hostAct (.deliverLine codes) u = some t → t.run = .faulted f → f.fpc = s.pc ∧ t = { s with run := .faulted f }) ∧
  ∀ s t : State, s.run = .running → (s.cfg.memSize : Int) ≤ s.pc → step s = .next t →
    t.run = .faulted ⟨.endOfMemory, s.pc, s.pc⟩ ∧ t.pc = s.pc

/-- R22, R23, R93: only CMP and CLF write a flag, only CLF clears one, and nothing sets DF. -/
def Obligations.FlagsAreStickyAndWrittenByCmpAndClfOnly : Prop :=
  ∀ (i : Instr) (s t : State), exec i s = .next t →
    ((∀ d v, i ≠ .cmp d v) → i ≠ .clf → t.ef = s.ef ∧ t.zf = s.zf) ∧
    (i ≠ .clf → (s.ef = true → t.ef = true) ∧ (s.zf = true → t.zf = true) ∧ t.df = s.df) ∧
    (t.df = true → s.df = true)

/-- R33: of all instructions only PUSH and CALL write memory within their own step (INT 2 does when its line is delivered). -/
def Obligations.MemoryIsWrittenByPushAndCallOnly : Prop :=
  ∀ (i : Instr) (s t : State), exec i s = .next t → (∀ r, i ≠ .push r) → (∀ a, i ≠ .call a) →
    t.mem = s.mem ∧ ∀ a : Int, t.cell a = s.cell a

/-- R26, R27: FS changes by PUSH, POP, CALL and RET only; CD goes up by one by CALL, down by one by RET, and changes by nothing
else. -/
def Obligations.HiddenCountersChangeByStackInstructionsOnly : Prop :=
  ∀ (i : Instr) (s t : State), exec i s = .next t →
    ((∀ r, i ≠ .push r) → (∀ r, i ≠ .pop r) → (∀ a, i ≠ .call a) → i ≠ .ret → t.fs = s.fs) ∧
    (t.cd = s.cd ∨ (∃ a, i = .call a) ∧ t.cd = s.cd + 1 ∨ i = .ret ∧ s.cd = t.cd + 1)

/-- R28, R131: the output stream is only ever appended to, by every step; of all instructions only INT 0 and INT 1 emit. -/
def Obligations.OutputIsOnlyAppendedTo : Prop :=
  (∀ s t : State, step s = .next t → ∃ cs, t.out = s.out ++ cs) ∧
  ∀ (i : Instr) (s t : State), exec i s = .next t → i ≠ .int .putChar → i ≠ .int .putString → t.out = s.out

/-- R6, R7: the parameters are fixed for the whole life of a machine. -/
def Obligations.ParametersNeverChange : Prop := ∀ s t : State, step s = .next t → t.cfg = s.cfg

/-! ### Machine control -/

/-- R68: BRK, one word, halts the run; `pc` is the address after it and nothing else changes. -/
def Obligations.BrkHaltsTheRun : Prop :=
  encode .brk = [1] ∧ ∀ s : State, exec .brk s = .next { s with pc := s.pc + 1, run := .halted .brk }

/-- R69, R130: DBG suspends the run for the debug surface with `pc` after it; Continue resumes there, Terminate halts there, and
nothing else changes. -/
def Obligations.DbgSuspendsUntilContinueOrTerminate : Prop :=
  ∀ s : State, ∃ t, exec .dbg s = .next t ∧ t = { s with pc := s.pc + 1, run := .suspended .debug } ∧
    hostAct .resume t = some { s with pc := s.pc + 1, run := .running } ∧
    hostAct .terminate t = some { s with pc := s.pc + 1, run := .halted .debugTerminate }

/-! ### Data movement -/

/-- R79, R80: LOAD writes its immediate and MOV its source register's word into the destination, whichever of the eleven
registers that is; every other register, the flags, FS, CD, memory and the output stay. -/
def Obligations.LoadAndMovWriteOneRegister : Prop :=
  ∀ (s : State) (r q : Reg) (v : Int),
    (∃ t, exec (.load r v) s = .next t ∧ t.reg r = v ∧ (∀ p, p ≠ r → t.reg p = s.reg p) ∧
      t = { s with pc := s.pc + 3, x := t.x } ∧ ∀ a : Int, t.cell a = s.cell a) ∧
    ∃ t, exec (.mov r q) s = .next t ∧ t.reg r = s.reg q ∧ (∀ p, p ≠ r → t.reg p = s.reg p) ∧
      t = { s with pc := s.pc + 3, x := t.x } ∧ ∀ a : Int, t.cell a = s.cell a

/-- R71, R81: PUSH with SP inside memory completes: the word the register held before the push stands in the cell at the old SP,
SP and FS have advanced by one, and every other register and cell and all other state is as before. -/
def Obligations.PushWritesTheCellAtSp : Prop :=
  ∀ (s : State) (r : Reg), s.mem.wf → s.isAddress (s.reg .sp) →
    ∃ t, exec (.push r) s = .next t ∧ t.cell (s.reg .sp) = s.reg r ∧
      (∀ a, s.isAddress a → a ≠ s.reg .sp → t.cell a = s.cell a) ∧
      t.reg .sp = s.reg .sp + 1 ∧ (∀ p, p ≠ .sp → t.reg p = s.reg p) ∧ t.fs = wrap s.cfg.wordBits (s.fs + 1) ∧
      t = { s with pc := s.pc + 2, x := t.x, fs := t.fs, mem := t.mem }

/-- R72, R82: POP with a cell of memory below SP completes: the register holds the word of the cell at SP - 1 (also when it is SP,
and then the decrement is overwritten), SP and FS have retreated by one, no cell changes, and all other state is as before. -/
def Obligations.PopReadsTheCellBelowSp : Prop :=
  ∀ (s : State) (r : Reg), s.isAddress (s.reg .sp - 1) →
    ∃ t, exec (.pop r) s = .next t ∧ t.reg r = s.cell (s.reg .sp - 1) ∧ (r ≠ .sp → t.reg .sp = s.reg .sp - 1) ∧
      (∀ p, p ≠ .sp → p ≠ r → t.reg p = s.reg p) ∧ t.fs = wrap s.cfg.wordBits (s.fs - 1) ∧
      (∀ a : Int, t.cell a = s.cell a) ∧ t = { s with pc := s.pc + 2, x := t.x, fs := t.fs }

/-- R71, R72, R81, R82: where PUSH and POP trap: StackOverflow when the cell would lie at or past N, StackUnderflow when it would
lie below 0, with SP as the information, and nothing else changes. -/
def Obligations.PushAndPopTrapOutsideMemory : Prop :=
  ∀ (s : State) (r : Reg),
    ((s.cfg.memSize : Int) ≤ s.reg .sp →
      exec (.push r) s = .next { s with run := .faulted ⟨.stackOverflow, s.reg .sp, s.pc⟩ }) ∧
    (s.reg .sp < 0 → exec (.push r) s = .next { s with run := .faulted ⟨.stackUnderflow, s.reg .sp, s.pc⟩ }) ∧
    ((s.cfg.memSize : Int) ≤ s.reg .sp - 1 →
      exec (.pop r) s = .next { s with run := .faulted ⟨.stackOverflow, s.reg .sp, s.pc⟩ }) ∧
    (s.reg .sp - 1 < 0 → exec (.pop r) s = .next { s with run := .faulted ⟨.stackUnderflow, s.reg .sp, s.pc⟩ })

/-! ### Arithmetic -/

/-- R9: for a finite width of at least one bit, `wrap z` is the one word of `V_W` that differs from `z` by a multiple of `2^W`;
for unbounded words it is `z`. -/
def Obligations.WrapIsTheTwosComplementReduction : Prop :=
  (∀ z : Int, wrap .unbounded z = z) ∧
  ∀ (w : Nat) (z v : Int), 1 ≤ w →
    (v = wrap (.bits w) z ↔ (-(2 ^ (w - 1)) ≤ v ∧ v ≤ 2 ^ (w - 1) - 1) ∧ ∃ k : Int, v = z + k * 2 ^ w)

/-- R83 to R88, R93: each of the six accumulator instructions completes with `wrap` of its exact integer result in AC; every
other register (the operands among them), the flags, FS, CD, memory and the output stay. -/
def Obligations.ArithmeticWritesOnlyTheAccumulator : Prop :=
  ∀ (s : State) (ra rb : Reg) (imm : Int) (i : Instr) (z : Int),
    (i, z) ∈ [(Instr.add ra rb, s.reg ra + s.reg rb), (Instr.addi ra imm, s.reg ra + imm),
      (Instr.sub ra rb, s.reg ra - s.reg rb), (Instr.subi ra imm, s.reg ra - imm),
      (Instr.mul ra rb, s.reg ra * s.reg rb), (Instr.muli ra imm, s.reg ra * imm)] →
    ∃ t, exec i s = .next t ∧ t.reg .ac = wrap s.cfg.wordBits z ∧ (∀ p, p ≠ .ac → t.reg p = s.reg p) ∧
      t = { s with pc := s.pc + 3, x := t.x } ∧ ∀ a : Int, t.cell a = s.cell a

/-- R89, R90: INC and DEC complete with the register one up or one down, wrapped, in place; every other register (AC too, unless
it is named), the flags, FS (also for SP), CD, memory and the output stay. -/
def Obligations.IncAndDecUpdateOneRegister : Prop :=
  ∀ (s : State) (r : Reg) (i : Instr) (d : Int), (i, d) ∈ [(Instr.inc r, (1 : Int)), (Instr.dec r, (-1 : Int))] →
    ∃ t, exec i s = .next t ∧ t.reg r = wrap s.cfg.wordBits (s.reg r + d) ∧ (∀ p, p ≠ r → t.reg p = s.reg p) ∧
      t = { s with pc := s.pc + 2, x := t.x } ∧ ∀ a : Int, t.cell a = s.cell a

/-- R91: CMP completes with EF set when the two registers are equal and ZF set when the second is zero, each otherwise as it was;
DF, every register, every cell and all other state stay. -/
def Obligations.CmpSetsFlagsAndNeverClears : Prop :=
  ∀ (s : State) (rd rs : Reg), ∃ t, exec (.cmp rd rs) s = .next t ∧
    (t.ef = true ↔ s.ef = true ∨ s.reg rd = s.reg rs) ∧ (t.zf = true ↔ s.zf = true ∨ s.reg rs = 0) ∧
    (∀ p, t.reg p = s.reg p) ∧ (∀ a : Int, t.cell a = s.cell a) ∧
    t = { s with pc := s.pc + 3, ef := t.ef, zf := t.zf }

/-- R92: CLF, one word, clears the three flags and changes nothing else. -/
def Obligations.ClfClearsAllFlags : Prop :=
  encode .clf = [16] ∧
  ∀ s : State, exec .clf s = .next { s with pc := s.pc + 1, ef := false, zf := false, df := false }

/-! ### Control transfer -/

/-- R94 to R98: JMP always jumps, JZ and JE when ZF or EF is 1, JNZ and JNE when it is 0; the target is taken unchanged and
unchecked; a branch not taken goes to the next instruction; nothing but `pc` changes. -/
def Obligations.JumpsSetOnlyThePc : Prop :=
  ∀ (s : State) (a : Int),
    exec (.jmp a) s = .next { s with pc := a } ∧
    exec (.jz a) s = .next { s with pc := if s.zf = true then a else s.pc + 2 } ∧
    exec (.jnz a) s = .next { s with pc := if s.zf = false then a else s.pc + 2 } ∧
    exec (.je a) s = .next { s with pc := if s.ef = true then a else s.pc + 2 } ∧
    exec (.jne a) s = .next { s with pc := if s.ef = false then a else s.pc + 2 }

/-- R74, R99: CALL with room for ten words completes: R0 to R7, the address after CALL and FS + 9 (wrapped) stand in the ten cells
from the old SP on; SP and FP are the old SP + 10, FS is 0, CD is one more, `pc` is the target; every other register (AC among
them) and cell, the flags and the output stay. -/
def Obligations.CallSavesTheStateAndJumps : Prop :=
  ∀ (s : State) (a : Int), s.mem.wf → 0 ≤ s.reg .sp → s.reg .sp + 10 ≤ s.cfg.memSize →
    ∃ t, exec (.call a) s = .next t ∧
      (t.cell (s.reg .sp) = s.reg .r0 ∧ t.cell (s.reg .sp + 1) = s.reg .r1 ∧ t.cell (s.reg .sp + 2) = s.reg .r2 ∧
        t.cell (s.reg .sp + 3) = s.reg .r3 ∧ t.cell (s.reg .sp + 4) = s.reg .r4 ∧ t.cell (s.reg .sp + 5) = s.reg .r5 ∧
        t.cell (s.reg .sp + 6) = s.reg .r6 ∧ t.cell (s.reg .sp + 7) = s.reg .r7 ∧ t.cell (s.reg .sp + 8) = s.pc + 2 ∧
        t.cell (s.reg .sp + 9) = wrap s.cfg.wordBits (s.fs + 9)) ∧
      (∀ b, s.isAddress b → b < s.reg .sp ∨ s.reg .sp + 10 ≤ b → t.cell b = s.cell b) ∧
      t.reg .sp = s.reg .sp + 10 ∧ t.reg .fp = s.reg .sp + 10 ∧ (∀ p, p ≠ .sp → p ≠ .fp → t.reg p = s.reg p) ∧
      t = { s with pc := a, x := t.x, fs := 0, cd := s.cd + 1, mem := t.mem }

/-- R74, R99: where CALL traps: StackUnderflow with SP below 0; StackOverflow where the first of the ten words does not fit, at N
or at an SP past it. Nothing is written. -/
def Obligations.CallTrapsWithoutRoom : Prop :=
  ∀ (s : State) (a : Int),
    (s.reg .sp < 0 → exec (.call a) s = .next { s with run := .faulted ⟨.stackUnderflow, s.reg .sp, s.pc⟩ }) ∧
    (0 ≤ s.reg .sp → (s.cfg.memSize : Int) < s.reg .sp + 10 →
      exec (.call a) s = .next { s with
        run := .faulted ⟨.stackOverflow, if s.reg .sp ≤ s.cfg.memSize then s.cfg.memSize else s.reg .sp, s.pc⟩ })

/-- R75, R100: RET with a CALL outstanding and, below FP and inside memory, the frame, a count `n ≥ 0` and `n` arguments
completes: R0 to R7, FS (less the ten pops and the arguments) and `pc` come from the frame, FP is `F - S - 1` wrapped, SP is
`F - 11 - n`, CD is one less; AC, every cell, the flags and the output stay. SP on entry does not matter. -/
def Obligations.RetRestoresTheFrame : Prop :=
  ∀ (s : State) (n : Int), s.cd ≠ 0 → s.reg .fp ≤ s.cfg.memSize → n = s.cell (s.reg .fp - 11) → 0 ≤ n →
    11 + n ≤ s.reg .fp →
    ∃ t, exec .ret s = .next t ∧
      (t.reg .r0 = s.cell (s.reg .fp - 10) ∧ t.reg .r1 = s.cell (s.reg .fp - 9) ∧ t.reg .r2 = s.cell (s.reg .fp - 8) ∧
        t.reg .r3 = s.cell (s.reg .fp - 7) ∧ t.reg .r4 = s.cell (s.reg .fp - 6) ∧ t.reg .r5 = s.cell (s.reg .fp - 5) ∧
        t.reg .r6 = s.cell (s.reg .fp - 4) ∧ t.reg .r7 = s.cell (s.reg .fp - 3)) ∧
      t.pc = s.cell (s.reg .fp - 2) ∧ t.fs = wrap s.cfg.wordBits (s.cell (s.reg .fp - 1) - 10 - n) ∧
      t.reg .fp = wrap s.cfg.wordBits (s.reg .fp - s.cell (s.reg .fp - 1) - 1) ∧ t.reg .sp = s.reg .fp - 11 - n ∧
      t.reg .ac = s.reg .ac ∧ (∀ a : Int, t.cell a = s.cell a) ∧
      t = { s with pc := t.pc, x := t.x, fs := t.fs, cd := s.cd - 1 }

/-- R75, R100: where RET traps, and nothing else changes: UnbalancedReturn(0) with no CALL outstanding; otherwise StackOverflow
with FP past memory; StackUnderflow with fewer than eleven words below FP, or with more arguments counted than there are words;
BadArgCount with a negative count. -/
def Obligations.RetTraps : Prop :=
  ∀ s : State,
    (s.cd = 0 → exec .ret s = .next { s with run := .faulted ⟨.unbalancedReturn, 0, s.pc⟩ }) ∧
    (s.cd ≠ 0 → (s.cfg.memSize : Int) < s.reg .fp →
      exec .ret s = .next { s with run := .faulted ⟨.stackOverflow, s.reg .fp, s.pc⟩ }) ∧
    (s.cd ≠ 0 → s.reg .fp ≤ s.cfg.memSize → s.reg .fp < 11 →
      exec .ret s = .next { s with run := .faulted ⟨.stackUnderflow, if s.reg .fp < 0 then s.reg .fp else 0, s.pc⟩ }) ∧
    (s.cd ≠ 0 → s.reg .fp ≤ s.cfg.memSize → 11 ≤ s.reg .fp → s.cell (s.reg .fp - 11) < 0 →
      exec .ret s = .next { s with run := .faulted ⟨.badArgCount, s.cell (s.reg .fp - 11), s.pc⟩ }) ∧
    (s.cd ≠ 0 → s.reg .fp ≤ s.cfg.memSize → 11 ≤ s.reg .fp → s.reg .fp < 11 + s.cell (s.reg .fp - 11) →
      exec .ret s = .next { s with run := .faulted ⟨.stackUnderflow, 0, s.pc⟩ })

/-- R78: a RET that matches a CALL restores the caller. The caller's FP is `Fc` and its FS was `k` before it pushed `n` arguments
and their count, the frame invariant holds at the CALL; after anything in between that leaves FP, the frame and the count as the
CALL left them, with a CALL outstanding, RET gives back R0 to R7, FP = Fc, SP = Fc + k, FS = k and the address after the CALL,
and keeps the AC, flags, cells and output it finds (R17, R24). -/
def Obligations.MatchingRetRestoresTheCaller : Prop :=
  ∀ (s : State) (a n k : Int), s.cfg.wf = true → s.mem.wf → s.cfg.inDomain (s.reg .fp) → s.cfg.inDomain k →
    s.frameInvariant → s.fs = k + n + 1 → s.cell (s.reg .sp - 1) = n → 0 ≤ n → 1 + n ≤ s.reg .sp →
    s.reg .sp + 10 ≤ s.cfg.memSize →
    ∃ u, exec (.call a) s = .next u ∧
      ∀ v : State, v.cfg = u.cfg → v.reg .fp = u.reg .fp → v.cd ≠ 0 →
        (∀ b, s.reg .sp - 1 ≤ b → b < s.reg .sp + 10 → v.cell b = u.cell b) →
        ∃ w, exec .ret v = .next w ∧ (∀ r ∈ gprs, w.reg r = s.reg r) ∧ w.reg .fp = s.reg .fp ∧
          w.reg .sp = s.reg .fp + k ∧ w.fs = k ∧ w.frameInvariant ∧ w.pc = s.pc + 2 ∧ w.reg .ac = v.reg .ac ∧
          (∀ b : Int, w.cell b = v.cell b) ∧
          w = { v with pc := w.pc, x := w.x, fs := w.fs, cd := v.cd - 1 }

/-- R73: the frame invariant SP = FP + FS holds of a constructed machine; PUSH, POP of a register other than SP and FP, and CALL keep
it, with unbounded words always and with finite ones while FP is an address or N; after a RET that completes it holds whatever FP, SP
and FS were before, up to the wrap of the FP and FS that RET computes (R75, R9), and exactly where these two are words of `V_W`
unwrapped, as with unbounded words they always are. A RET that faults keeps it. -/
def Obligations.FrameInvariantIsKept : Prop :=
  (∀ c : Config, (State.construct c).frameInvariant) ∧
  (∀ (s t : State) (i : Instr), s.cfg.wf = true → s.frameInvariant →
    s.cfg.wordBits = .unbounded ∨ 0 ≤ s.reg .fp ∧ s.reg .fp ≤ s.cfg.memSize →
    ((∃ r, i = .push r) ∨ (∃ r, r ≠ .sp ∧ r ≠ .fp ∧ i = .pop r) ∨ ∃ a, i = .call a) → exec i s = .next t →
    t.frameInvariant) ∧
  ∀ s t : State, s.cfg.wf = true → s.run = .running → exec .ret s = .next t →
    (t.run = .running → wrap s.cfg.wordBits (t.reg .sp) = wrap s.cfg.wordBits (t.reg .fp + t.fs) ∧
      (s.cfg.inDomain (s.reg .fp - s.cell (s.reg .fp - 1) - 1) →
        s.cfg.inDomain (s.cell (s.reg .fp - 1) - 10 - s.cell (s.reg .fp - 11)) → t.frameInvariant)) ∧
    (t.run ≠ .running → s.frameInvariant → t.frameInvariant)

/-! ### Interrupts -/

/-- R104: PutChar emits the code in the cell at SP and changes nothing else but `pc`; it faults BadAddress(SP) with SP outside
memory and BadCharacter with a word that is no character code. -/
def Obligations.PutCharEmitsTheCellAtSp : Prop :=
  ∀ s : State,
    (s.isAddress (s.reg .sp) → s.isCharacter (s.cell (s.reg .sp)) →
      exec (.int .putChar) s = .next { s with pc := s.pc + 2, out := s.out ++ [s.cell (s.reg .sp)] }) ∧
    (¬ s.isAddress (s.reg .sp) →
      exec (.int .putChar) s = .next { s with run := .faulted ⟨.badAddress, s.reg .sp, s.pc⟩ }) ∧
    (s.isAddress (s.reg .sp) → ¬ s.isCharacter (s.cell (s.reg .sp)) →
      exec (.int .putChar) s = .next { s with run := .faulted ⟨.badCharacter, s.cell (s.reg .sp), s.pc⟩ })

/-- R105: PutString with a string of character codes and its zero cell at SP, inside memory, emits the codes and a newline (10)
and changes nothing else but `pc`. -/
def Obligations.PutStringEmitsTheStringAtSp : Prop :=
  ∀ (s : State) (cs : List Int), 0 ≤ s.reg .sp → s.reg .sp + cs.length < s.cfg.memSize →
    (∀ (k : Nat) (h : k < cs.length), s.cell (s.reg .sp + k) = cs[k] ∧ cs[k] ≠ 0 ∧ s.isCharacter cs[k]) →
    s.cell (s.reg .sp + cs.length) = 0 →
    exec (.int .putString) s = .next { s with pc := s.pc + 2, out := s.out ++ (cs ++ [10]) }

/-- R105: where PutString traps, nothing being emitted: BadAddress(SP) with SP outside memory; after a run of character codes,
BadAddress(N) when it reaches the end of memory, BadCharacter when a word follows that is no character code. -/
def Obligations.PutStringTraps : Prop :=
  ∀ s : State,
    (¬ s.isAddress (s.reg .sp) →
      exec (.int .putString) s = .next { s with run := .faulted ⟨.badAddress, s.reg .sp, s.pc⟩ }) ∧
    ∀ cs : List Int, s.isAddress (s.reg .sp) →
      (∀ (k : Nat) (h : k < cs.length), s.cell (s.reg .sp + k) = cs[k] ∧ cs[k] ≠ 0 ∧ s.isCharacter cs[k]) →
      (s.reg .sp + cs.length = s.cfg.memSize →
        exec (.int .putString) s = .next { s with run := .faulted ⟨.badAddress, s.cfg.memSize, s.pc⟩ }) ∧
      (s.reg .sp + cs.length < s.cfg.memSize → ¬ s.isCharacter (s.cell (s.reg .sp + cs.length)) →
        exec (.int .putString) s =
          .next { s with run := .faulted ⟨.badCharacter, s.cell (s.reg .sp + cs.length), s.pc⟩ })

/-- R106: INT 2 suspends the core for input with `pc` after it, the address of the INT kept, and changes nothing else. -/
def Obligations.ReadLineSuspendsForInput : Prop :=
  ∀ s : State, exec (.int .readLine) s = .next { s with pc := s.pc + 2, run := .suspended (.input s.pc) }

/-- R107, R129: a delivered line that fits is stored from SP on with a zero after it, SP moves past both, the core is Running
again; FS, the other registers, every other cell, the flags and the output stay. How the delivery reaches the step (the pending
operation is taken and answered) is the model's choice, log entry 4. -/
def Obligations.DeliveredLineIsStoredAtSp : Prop :=
  ∀ (s : State) (p : Int) (codes : List Int) (rest : List HostOp), s.run = .suspended (.input p) →
    s.inbox = .deliverLine codes :: rest → (∀ c ∈ codes, 1 ≤ c ∧ c ≤ s.cfg.charMax ∧ s.cfg.inDomain c) → s.mem.wf →
    0 ≤ s.reg .sp → s.reg .sp + codes.length < s.cfg.memSize →
    ∃ t, step s = .next t ∧ (∀ (k : Nat) (h : k < codes.length), t.cell (s.reg .sp + k) = codes[k]) ∧
      t.cell (s.reg .sp + codes.length) = 0 ∧
      (∀ a, s.isAddress a → a < s.reg .sp ∨ s.reg .sp + codes.length < a → t.cell a = s.cell a) ∧
      t.reg .sp = s.reg .sp + codes.length + 1 ∧ (∀ q, q ≠ .sp → t.reg q = s.reg q) ∧
      t = { s with
        x := t.x, mem := t.mem, run := .running, inbox := rest, replies := s.replies ++ [HostReply.accepted] }

/-- R107, R129: a line with a code outside 1 to CHAR_MAX is refused and changes nothing; a line that does not fit faults the INT
with BadAddress, the state being that before the INT. How the delivery reaches the step is the model's choice, log entry 4. -/
def Obligations.BadLineIsRefusedAndLongLineFaults : Prop :=
  ∀ (s : State) (p : Int) (codes : List Int) (rest : List HostOp), s.run = .suspended (.input p) →
    s.inbox = .deliverLine codes :: rest →
    ((∃ c ∈ codes, c < 1 ∨ (s.cfg.charMax : Int) < c) →
      step s = .next { s with inbox := rest, replies := s.replies ++ [HostReply.refused] }) ∧
    ((∀ c ∈ codes, 1 ≤ c ∧ c ≤ s.cfg.charMax ∧ s.cfg.inDomain c) →
      s.reg .sp < 0 ∨ (s.cfg.memSize : Int) ≤ s.reg .sp + codes.length →
      step s = .next { s with
        pc := p
        run := .faulted ⟨.badAddress,
          if s.reg .sp < 0 ∨ (s.cfg.memSize : Int) ≤ s.reg .sp then s.reg .sp else s.cfg.memSize, p⟩
        inbox := rest
        replies := s.replies ++ [HostReply.accepted] })

/-! ### The host interface -/

/-- R123: a boundary operation is done only in the run state that allows it; a refused one changes no piece of the spec's state
(that it is taken from the model's queue and answered there is the model's choice, log entry 4). -/
def Obligations.HostOperationsNeedTheirRunState : Prop :=
  (∀ (op : HostOp) (s t : State), hostAct op s = some t →
    match op with
    | .load _ _ | .seed _ _ | .setEntry _ | .run => s.run = .ready
    | .deliverLine _ => ∃ p, s.run = .suspended (.input p)
    | .resume | .terminate => s.run = .suspended .debug) ∧
  ∀ (op : HostOp) (rest : List HostOp) (s : State), s.run ≠ .running → s.inbox = op :: rest → hostAct op s = none →
    step s = .next { s with inbox := rest, replies := s.replies ++ [HostReply.refused] }

/-- R124: in Ready, Load of words of `V_W` that fit in memory writes them from the offset on and changes nothing else; in every
other case it is refused; Seed is the same operation. -/
def Obligations.LoadWritesTheImage : Prop :=
  ∀ (s : State) (off : Int) (ws : List Int),
    (s.mem.wf → s.run = .ready → 0 ≤ off → off + ws.length ≤ s.cfg.memSize → (∀ w ∈ ws, s.cfg.inDomain w) →
      ∃ t, hostAct (.load off ws) s = some t ∧
        (∀ (k : Nat) (h : k < ws.length), t.cell (off + k) = ws[k]) ∧
        (∀ a, s.isAddress a → a < off ∨ off + ws.length ≤ a → t.cell a = s.cell a) ∧ t = { s with mem := t.mem }) ∧
    (s.run ≠ .ready ∨ off < 0 ∨ (s.cfg.memSize : Int) < off + ws.length ∨ (∃ w ∈ ws, ¬ s.cfg.inDomain w) →
      hostAct (.load off ws) s = none) ∧
    hostAct (.seed off ws) s = hostAct (.load off ws) s

/-- R67, R125: Run and SetEntry in Ready: Run makes the core Running, SetEntry of a word moves `pc` to it, unchecked; nothing else
changes. -/
def Obligations.RunAndSetEntryStartTheCore : Prop :=
  ∀ (s : State) (a : Int), s.run = .ready →
    hostAct .run s = some { s with run := .running } ∧
    (s.cfg.inDomain a → hostAct (.setEntry a) s = some { s with pc := a })

/-- R136: the boot sequence. From a constructed machine with Load, SetEntry and Run to come, three steps give a Running core at the
entry with the image in memory and every other piece of state as constructed. That the operations stand in a queue of the model's
is its choice, log entry 4. -/
def Obligations.BootSequenceStartsTheProgram : Prop :=
  ∀ (c : Config) (off entry : Int) (ws : List Int), 0 ≤ off → off + ws.length ≤ c.memSize → (∀ w ∈ ws, c.inDomain w) →
    c.inDomain entry →
    ∃ t : State, Host.Core.run core 3 { State.construct c with inbox := [.load off ws, .setEntry entry, .run] } = .next t ∧
      (∀ (k : Nat) (h : k < ws.length), t.cell (off + k) = ws[k]) ∧
      (∀ a : Int, 0 ≤ a → a < off ∨ off + ws.length ≤ a → t.cell a = 0) ∧
      t = { State.construct c with
        pc := entry, run := .running, mem := t.mem, replies := [.accepted, .accepted, .accepted] }

/-- R128: the host reads any range of cells inside memory in every run state; cells outside it are refused (log entry 14). -/
def Obligations.HostReadsAnyCellRange : Prop :=
  ∀ (s : State) (a : Int) (k : Nat),
    (0 ≤ a → a + k ≤ s.cfg.memSize →
      ∃ vs : List Int, hostRead (.cells a k) s = some (.words vs) ∧ vs.length = k ∧
        ∀ (j : Nat) (h : j < vs.length), vs[j] = s.cell (a + j)) ∧
    (a < 0 ∨ (s.cfg.memSize : Int) < a + k → hostRead (.cells a k) s = none)

/-- R127: the debug surface's mnemonic of the instruction at `pc` is the one the opcode map gives its opcode word (R52). -/
def Obligations.DebugSurfaceNamesTheInstruction : Prop :=
  ∀ (s : State) (i : Instr), s.codeAt i →
    ∃ row ∈ opcodeMap, row.opcode = i.opcode ∧ row.format.arity + 1 = i.length ∧ hostMnemonic s = some row.mnemonic

/-- R57, R58: a text assembles to given words exactly when its labels have addresses, no label stands twice, and the words are, item
after item, what each item stands for: a label no word, an instruction the opcode of the row its mnemonic names and one word for
each operand text, a register name its index, a number its value, a label its address (`Assembler.itemStandsFor`). The first clause
says it of a list of items and a label table, the second of a text. That a label may not stand twice nor before no instruction, that
a malformed number is refused, that a target that reads as a number is one and that the address of the first word is an argument are
the model's choices, log entry 17, and so are which texts are label names and which odd spacings and separators are taken (log entries 19
and 20). -/
def Obligations.AssembledItemsAreWholeInstructions : Prop :=
  (∀ (table : List (List Char × Int)) (its : List Assembler.Item) (ws : List Int), (table.map Prod.fst).Nodup →
    (Assembler.itemWords table its = .ok ws ↔
      ∃ parts, List.Forall₂ (Assembler.itemStandsFor table) its parts ∧ ws = parts.flatten)) ∧
  ∀ (origin : Int) (src : List Char) (ws : List Int),
    Assembler.assemble origin src = .ok ws ↔
      ∃ table parts, Assembler.labelAddresses origin [] (Assembler.items src) = .ok table ∧ (table.map Prod.fst).Nodup ∧
        List.Forall₂ (Assembler.itemStandsFor table) (Assembler.items src) parts ∧ ws = parts.flatten

/-- R57: a label stands for the address of the opcode word of the instruction it stands before, which is the address of the text's
first word plus the number of words the items before the label assemble to: that is its entry in the label table, and, where no label
stands twice, the word a target operand of that name assembles to. A name that reads as a number is shut out of the second clause:
as a target it is that number; that, and that the address of the first word is an argument, are the model's choices, log entry
17. That any text may be a name, and several may stand before one instruction, is log entry 19. -/
def Obligations.LabelsStandForTheAddressOfTheirInstruction : Prop :=
  ∀ (a : Int) (before after : List Assembler.Item) (n : List Char) (table labels : List (List Char × Int)) (ws : List Int),
    Assembler.labelAddresses a [] (before ++ .label n :: after) = .ok table →
    Assembler.itemWords labels before = .ok ws →
    (n, a + ws.length) ∈ table ∧
    ((table.map Prod.fst).Nodup → Assembler.integerValue n = none →
      Assembler.operandWord table .target n = .ok (a + ws.length))

/-- R52: the opcode map, row by row: the words of every instruction with all its operands, the row's opcode, mnemonic and format, and
the mnemonic the debug surface gives the instruction (R127). No opcode stands twice, and a word that is not in the map is invalid. -/
def Obligations.OpcodeMapIsTheTableOfTheSpec : Prop :=
  (∀ (r q : Reg) (v : Int) (c : IntCode) (i : Instr) (m : String) (f : Format) (ws : List Int),
    (i, m, f, ws) ∈
      [(Instr.brk, "BRK", Format.f0, [1]), (.dbg, "DBG", .f0, [2]), (.load r v, "LOAD", .f2ri, [3, r.toWord, v]),
        (.mov r q, "MOV", .f2rr, [4, r.toWord, q.toWord]), (.push r, "PUSH", .f1r, [5, r.toWord]),
        (.pop r, "POP", .f1r, [6, r.toWord]), (.add r q, "ADD", .f2rr, [7, r.toWord, q.toWord]),
        (.addi r v, "ADDI", .f2ri, [8, r.toWord, v]), (.sub r q, "SUB", .f2rr, [9, r.toWord, q.toWord]),
        (.subi r v, "SUBI", .f2ri, [10, r.toWord, v]), (.mul r q, "MUL", .f2rr, [11, r.toWord, q.toWord]),
        (.muli r v, "MULI", .f2ri, [12, r.toWord, v]), (.inc r, "INC", .f1r, [13, r.toWord]),
        (.dec r, "DEC", .f1r, [14, r.toWord]), (.cmp r q, "CMP", .f2rr, [15, r.toWord, q.toWord]), (.clf, "CLF", .f0, [16]),
        (.jmp v, "JMP", .f1t, [17, v]), (.jz v, "JZ", .f1t, [18, v]), (.jnz v, "JNZ", .f1t, [19, v]),
        (.je v, "JE", .f1t, [20, v]), (.jne v, "JNE", .f1t, [21, v]), (.call v, "CALL", .f1t, [22, v]),
        (.ret, "RET", .f0, [23]), (.int c, "INT", .f1c, [24, c.toWord])] →
    encode i = ws ∧ (∀ rest, decode (ws ++ rest) = .ok (i, rest)) ∧ ws.head? = some i.opcode ∧
      ⟨i.opcode, m, f⟩ ∈ opcodeMap ∧ i.mnemonic = m ∧ ∀ s : State, s.codeAt i → hostMnemonic s = some m) ∧
  (opcodeMap.map OpcodeRow.opcode).Nodup ∧
  ∀ (op : Int) (ws : List Int), (∀ row ∈ opcodeMap, row.opcode ≠ op) → decode (op :: ws) = .error (.invalidOpcode op)

/-- R57: a signed decimal integer is digits, at least one, with or without a sign, and its value is the number they write; every other
text is no number. That a plus sign may stand is the model's choice, log entry 17. -/
def Obligations.NumbersAreSignedDecimals : Prop :=
  (∀ v : Int, Assembler.integerValue (decimalText v) = some v) ∧
  ∀ (text : List Char) (v : Int), Assembler.integerValue text = some v ↔
    ∃ ds : List Char, ds ≠ [] ∧ (∀ d ∈ ds, d.isDigit = true) ∧
      ((text = ds ∨ text = '+' :: ds) ∧ v = Nat.ofDigitChars 10 ds 0 ∨ text = '-' :: ds ∧ v = -(Nat.ofDigitChars 10 ds 0 : Int))

/-- R57, R60: a program written out in the assembler syntax, instructions one a line or several separated by `;`, operands separated by
`, ` or a space, registers by name, all others as signed decimal numbers, a comment after `;;` on any line, assembles to the encodings
of its instructions, one after the other, wherever it will be loaded. That a line with no instruction assembles to nothing is the model's
choice, log entry 20. -/
def Obligations.ProgramTextAssemblesToItsEncodings : Prop :=
  ∀ (origin : Int) (program : List (List (Bool × Instr) × List Char)), (∀ l ∈ program, '\n' ∉ l.2) →
    Assembler.assemble origin (Assembler.programText program) =
      .ok (program.flatMap fun l => l.1.flatMap fun p => encode p.2)

/-- R127, R76: the debug surface's views. The stack window around SP holds, in address order, exactly the cells of memory from `below`
cells below SP to `above` cells above it, SP's own among them (that it has these two widths and ends where memory ends is the model's
choice, log entry 18); the view of the call frame holds the saved R0 to R7, the return address and the saved frame size, the ten cells
below FP. -/
def Obligations.DebugViewsShowStackAndFrame : Prop :=
  ∀ s : State,
    (∀ below above : Nat, ∃ vs : List Int, hostStackWindow below above s = some (.words vs) ∧
      (∀ b : Int, (s.stackWindowStart below ≤ b ∧ b < s.stackWindowStart below + vs.length) ↔
        s.isAddress b ∧ s.reg .sp - below ≤ b ∧ b ≤ s.reg .sp + above) ∧
      ∀ (k : Nat) (h : k < vs.length), vs[k] = s.cell (s.stackWindowStart below + k)) ∧
    (10 ≤ s.reg .fp → s.reg .fp ≤ s.cfg.memSize →
      hostFrame s = some (.words [s.cell (s.reg .fp - 10), s.cell (s.reg .fp - 9), s.cell (s.reg .fp - 8),
        s.cell (s.reg .fp - 7), s.cell (s.reg .fp - 6), s.cell (s.reg .fp - 5), s.cell (s.reg .fp - 4),
        s.cell (s.reg .fp - 3), s.cell (s.reg .fp - 2), s.cell (s.reg .fp - 1)]))
end

