-- ==== Sys2Proof/Laws/Assembler.lean ====
section
/-!
SUPPORT. What each function of the assembler can do (spec 30_encoding.md R57, R58): names, numbers, operand words, the label table,
and the cutting of a text into tokens.
-/

namespace Sys2Proof.Assembler

/-! ### Names and numbers -/

/-- A register text is exactly a register's name, and its word that register's index. -/
theorem registerIndex_eq_some_iff {t : List Char} {w : Int} :
    registerIndex t = some w ↔ ∃ r : Reg, t = r.name.toList ∧ w = r.toWord := by
  constructor
  · intro h
    unfold registerIndex at h
    obtain ⟨p, hp, rfl⟩ := Option.map_eq_some_iff.1 h
    have ht : p.1.toList = t := by simpa using List.find?_some hp
    have key : ∀ p ∈ registerNames, ∃ r : Reg, p = (r.name, r.toWord) := by
      intro p hp
      simp only [registerNames, List.mem_cons, List.not_mem_nil, or_false] at hp
      rcases hp with rfl | rfl | rfl | rfl | rfl | rfl | rfl | rfl | rfl | rfl | rfl
      exacts [⟨.r0, rfl⟩, ⟨.r1, rfl⟩, ⟨.r2, rfl⟩, ⟨.r3, rfl⟩, ⟨.r4, rfl⟩, ⟨.r5, rfl⟩, ⟨.r6, rfl⟩, ⟨.r7, rfl⟩, ⟨.ac, rfl⟩,
        ⟨.sp, rfl⟩, ⟨.fp, rfl⟩]
    obtain ⟨r, rfl⟩ := key p (List.mem_of_find?_eq_some hp)
    exact ⟨r, ht.symm, rfl⟩
  · rintro ⟨r, rfl, rfl⟩
    cases r <;> decide

/-- What a mnemonic's row can be. -/
theorem rowOf_eq_some_iff {m : List Char} {row : OpcodeRow} :
    rowOf m = some row ↔
      row ∈ opcodeMap ∧ (m = row.mnemonic.toList ∨ m = "HALT".toList ∧ row.mnemonic = "BRK") := by
  have hfind : ∀ row ∈ opcodeMap, opcodeMap.find? (fun q => q.mnemonic.toList == row.mnemonic.toList) = some row := by decide
  have hhalt : ∀ row ∈ opcodeMap, row.mnemonic.toList ≠ "HALT".toList := by decide
  unfold rowOf
  by_cases hm : m = "HALT".toList
  · simp only [hm, if_true]
    constructor
    · intro h
      refine ⟨List.mem_of_find?_eq_some h, .inr ⟨trivial, ?_⟩⟩
      have := List.find?_some h
      simp only [beq_iff_eq] at this
      exact String.toList_injective this
    · rintro ⟨hr, h | ⟨-, h⟩⟩
      · exact absurd h.symm (hhalt row hr)
      · have := hfind row hr
        rwa [h] at this
  · simp only [hm, if_false, false_and, or_false]
    constructor
    · intro h
      refine ⟨List.mem_of_find?_eq_some h, ?_⟩
      have := List.find?_some h
      simp only [beq_iff_eq] at this
      exact this.symm
    · rintro ⟨hr, rfl⟩
      exact hfind row hr

/-- The value of a run of digits. -/
theorem digitsValue_eq_some_iff {cs : List Char} {acc n : Nat} :
    digitsValue acc cs = some n ↔ (∀ c ∈ cs, c.isDigit = true) ∧ n = Nat.ofDigitChars 10 cs acc := by
  induction cs generalizing acc with
  | nil =>
    simp only [digitsValue, Option.some.injEq, Nat.ofDigitChars, List.foldl_nil, List.not_mem_nil, false_imp_iff,
      implies_true, true_and]
    exact eq_comm
  | cons c cs ih =>
    have hd : (48 ≤ c.toNat ∧ c.toNat ≤ 57) ↔ c.isDigit = true := by
      rw [Char.isDigit, Bool.and_eq_true, decide_eq_true_iff, decide_eq_true_iff]
      exact Iff.rfl
    simp only [digitsValue]
    split
    · next h =>
      rw [ih]
      simp [hd.1 h, Nat.ofDigitChars]
    · next h =>
      simp only [List.mem_cons, forall_eq_or_imp]
      constructor
      · intro h'; cases h'
      · rintro ⟨⟨h1, -⟩, -⟩; exact absurd (hd.2 h1) h

/-- The value of a natural number's text: at least one digit, nothing else. -/
theorem naturalValue_eq_some_iff {cs : List Char} {n : Nat} :
    naturalValue cs = some n ↔ cs ≠ [] ∧ (∀ c ∈ cs, c.isDigit = true) ∧ n = Nat.ofDigitChars 10 cs 0 := by
  cases cs with
  | nil => simp [naturalValue]
  | cons c cs => simp [naturalValue, digitsValue_eq_some_iff]

/-- The text of a natural number reads as that number. -/
theorem naturalValue_toDigits (n : Nat) : naturalValue (Nat.toDigits 10 n) = some n := by
  rw [naturalValue_eq_some_iff]
  refine ⟨?_, fun c hc => Nat.isDigit_of_mem_toDigits (by omega) (by omega) hc,
    (Nat.ofDigitChars_toDigits (by omega) (by omega)).symm⟩
  rw [Nat.toDigits_eq_if (by omega)]
  split <;> simp

/-! ### Operand words -/

/-- No name stands twice among the labels. -/
theorem firstDuplicate_eq_none_iff {table : List (List Char × Int)} :
    firstDuplicate table = none ↔ (table.map Prod.fst).Nodup := by
  induction table with
  | nil => simp [firstDuplicate]
  | cons p table ih =>
    obtain ⟨n, a⟩ := p
    simp only [firstDuplicate, List.map_cons, List.nodup_cons, List.mem_map, ← ih]
    split
    · next h =>
      obtain ⟨q, hq, hn⟩ := List.any_eq_true.1 h
      constructor
      · intro h'; cases h'
      · rintro ⟨h', -⟩; exact absurd ⟨q, hq, by simpa using hn⟩ h'
    · next h =>
      constructor
      · intro h'
        refine ⟨?_, h'⟩
        rintro ⟨q, hq, hn⟩
        exact h (List.any_eq_true.2 ⟨q, hq, by simpa using hn⟩)
      · exact And.right

/-- The lookup of a name in a table in which no name stands twice. -/
theorem find_label_iff {table : List (List Char × Int)} (h : (table.map Prod.fst).Nodup) {n : List Char} {w : Int} :
    (∃ p, table.find? (fun p => p.1 == n) = some p ∧ p.2 = w) ↔ (n, w) ∈ table := by
  induction table with
  | nil => simp
  | cons q table ih =>
    obtain ⟨m, a⟩ := q
    simp only [List.map_cons, List.nodup_cons, List.mem_map] at h
    by_cases hm : m = n
    · subst hm
      have : (m, w) ∉ table := fun hw => h.1 ⟨(m, w), hw, rfl⟩
      simp [this, eq_comm]
    · have hne : (n, w) ≠ (m, a) := fun he => hm (congrArg Prod.fst he).symm
      rw [List.find?_cons_of_neg (by simpa using hm), ih h.2, List.mem_cons]
      simp [hne]

/-- The word of an operand is what its text stands for. -/
theorem operandWord_eq_ok_iff {table : List (List Char × Int)} (h : (table.map Prod.fst).Nodup) {k : OperandKind}
    {t : List Char} {w : Int} : operandWord table k t = .ok w ↔ operandStandsFor table k t w := by
  cases k <;> simp only [operandWord, operandStandsFor]
  · rw [← registerIndex_eq_some_iff]
    cases registerIndex t <;> simp
  · cases integerValue t <;> simp
  · rw [← find_label_iff h]
    cases integerValue t with
    | some v => simp
    | none => cases table.find? (fun p => p.1 == t) <;> simp
  · cases integerValue t <;> simp

/-- The words of operands are what their texts stand for. -/
theorem operandWords_eq_ok_iff {table : List (List Char × Int)} (h : (table.map Prod.fst).Nodup) {m : List Char}
    {ks : List OperandKind} {ts : List (List Char)} {ws : List Int} :
    operandWords table m ks ts = .ok ws ↔ operandsStandFor table ks ts ws := by
  induction ks generalizing ts ws with
  | nil => cases ts <;> cases ws <;> simp [operandWords, operandsStandFor]
  | cons k ks ih =>
    cases ts with
    | nil => cases ws <;> simp [operandWords, operandsStandFor]
    | cons t ts =>
      have hk : ∀ w, operandWord table k t = .ok w ↔ operandStandsFor table k t w := fun w => operandWord_eq_ok_iff h
      simp only [operandWords]
      cases ho : operandWord table k t with
      | error e =>
        cases ws with
        | nil => simp [operandsStandFor]
        | cons w ws => simp [operandsStandFor, ← hk, ho]
      | ok v =>
        cases hr : operandWords table m ks ts with
        | error e =>
          cases ws with
          | nil => simp [operandsStandFor]
          | cons w ws => simp [operandsStandFor, ← ih, hr]
        | ok vs =>
          cases ws with
          | nil => simp [operandsStandFor]
          | cons w ws => simp [operandsStandFor, ← ih, hr, ← hk, ho]

/-- As many operand words as the format has, and as many operand texts. -/
theorem operandsStandFor_length {table : List (List Char × Int)} {ks : List OperandKind} {ts : List (List Char)}
    {ws : List Int} (h : operandsStandFor table ks ts ws) : ts.length = ks.length ∧ ws.length = ks.length := by
  induction ks generalizing ts ws with
  | nil => cases ts <;> cases ws <;> simp_all [operandsStandFor]
  | cons k ks ih =>
    cases ts <;> cases ws <;> simp only [operandsStandFor] at h
    simp [ih h.2]

/-- As many operand words as the format has, whatever the label table. -/
theorem operandWords_length {table : List (List Char × Int)} {m : List Char} {ks : List OperandKind} {ts : List (List Char)}
    {ws : List Int} (h : operandWords table m ks ts = .ok ws) : ws.length = ks.length := by
  induction ks generalizing ts ws with
  | nil => cases ts <;> cases h; rfl
  | cons k ks ih =>
    cases ts with
    | nil => cases h
    | cons t ts =>
      simp only [operandWords] at h
      split at h
      · cases h
      · split at h <;> cases h
        simp [ih (by assumption)]

/-! ### The cutting of a text -/

/-- A text with no `;` has no comment. -/
theorem cutComment_of_not_mem {cs : List Char} (h : ';' ∉ cs) : cutComment cs = cs := by
  induction cs with
  | nil => rfl
  | cons c cs ih =>
    simp only [List.mem_cons, not_or] at h
    unfold cutComment
    split
    · next heq => cases heq
    · next heq => cases heq; exact absurd rfl h.1
    · next heq => cases heq; rw [ih h.2]

/-- A comment is cut where the first `;;` stands: after a text with no `;`. -/
theorem cutComment_append {cs : List Char} (h : ';' ∉ cs) (rest : List Char) : cutComment (cs ++ rest) = cs ++ cutComment rest := by
  induction cs with
  | nil => rfl
  | cons c cs ih =>
    simp only [List.mem_cons, not_or] at h
    rw [List.cons_append, List.cons_append]
    conv => lhs; unfold cutComment
    split
    · next heq => cases heq
    · next heq => injection heq with hc; exact absurd hc.symm h.1
    · next heq => cases heq; rw [ih h.2]

/-- A text with no `,` has no `, `. -/
theorem commaToSpace_append {cs : List Char} (h : ',' ∉ cs) (rest : List Char) :
    commaToSpace (cs ++ rest) = cs ++ commaToSpace rest := by
  induction cs with
  | nil => rfl
  | cons c cs ih =>
    simp only [List.mem_cons, not_or] at h
    rw [List.cons_append, List.cons_append]
    conv => lhs; unfold commaToSpace
    split
    · next heq => cases heq
    · next heq => injection heq with hc; exact absurd hc.symm h.1
    · next heq => cases heq; rw [ih h.2]

end Sys2Proof.Assembler
end

