-- ==== Sys2Proof/Laws/Decode.lean ====
section
/-!
SUPPORT. What the operand decoders and the opcode lookup can do (spec 30_encoding.md R48, R51, R52, 45_interrupt.md R108).
-/

namespace Sys2Proof

@[simp] theorem regOfWord_toWord (r : Reg) : regOfWord r.toWord = .ok r := by cases r <;> rfl

@[simp] theorem intCodeOfWord_toWord (c : IntCode) : intCodeOfWord c.toWord = .ok c := by cases c <;> rfl

/-- A word that names a register is that register's index word. -/
theorem regOfWord_eq_ok {w : Int} {r : Reg} (h : regOfWord w = .ok r) : w = r.toWord := by
  unfold regOfWord at h
  split at h <;> first | (cases h; rfl) | cases h

/-- The only error of a register operand, and when it occurs. -/
theorem regOfWord_eq_error {w : Int} {e : DecodeError} (h : regOfWord w = .error e) :
    e = .badRegister w ∧ (w < 0 ∨ 10 < w) := by
  by_cases hc : 0 ≤ w ∧ w ≤ 10
  · exfalso
    have : w = 0 ∨ w = 1 ∨ w = 2 ∨ w = 3 ∨ w = 4 ∨ w = 5 ∨ w = 6 ∨ w = 7 ∨ w = 8 ∨ w = 9 ∨ w = 10 := by omega
    rcases this with rfl | rfl | rfl | rfl | rfl | rfl | rfl | rfl | rfl | rfl | rfl <;> cases h
  · refine ⟨?_, by omega⟩
    unfold regOfWord at h
    split at h <;> cases h
    rfl

/-- A word that is an interrupt code is that code's word. -/
theorem intCodeOfWord_eq_ok {w : Int} {c : IntCode} (h : intCodeOfWord w = .ok c) : w = c.toWord := by
  unfold intCodeOfWord at h
  split at h <;> first | (cases h; rfl) | cases h

/-- The only error of an interrupt code, and when it occurs. -/
theorem intCodeOfWord_eq_error {w : Int} {e : DecodeError} (h : intCodeOfWord w = .error e) :
    e = .badInterrupt w ∧ (w < 0 ∨ 2 < w) := by
  by_cases hc : 0 ≤ w ∧ w ≤ 2
  · exfalso
    have : w = 0 ∨ w = 1 ∨ w = 2 := by omega
    rcases this with rfl | rfl | rfl <;> cases h
  · refine ⟨?_, by omega⟩
    unfold intCodeOfWord at h
    split at h <;> cases h
    rfl

/-- The opcode words of the opcode map lie between 1 and 24. -/
theorem opcodeForm_range {op : Int} {f : Form} (h : opcodeForm op = some f) : 1 ≤ op ∧ op ≤ 24 := by
  unfold opcodeForm at h
  split at h <;> first | omega | cases h

/-- Everything the operand decoder can do when it succeeds, format by format. -/
theorem decodeOperands_inv {f : Form} {ws rest : List Int} {i : Instr} (h : decodeOperands f ws = .ok (i, rest)) :
    match f with
    | .f0 j => i = j ∧ ws = rest
    | .f1r mk => ∃ r : Reg, i = mk r ∧ ws = r.toWord :: rest
    | .f1t mk => ∃ v : Int, i = mk v ∧ ws = v :: rest
    | .f1c mk => ∃ c : IntCode, i = mk c ∧ ws = c.toWord :: rest
    | .f2rr mk => ∃ r q : Reg, i = mk r q ∧ ws = r.toWord :: q.toWord :: rest
    | .f2ri mk => ∃ (r : Reg) (v : Int), i = mk r v ∧ ws = r.toWord :: v :: rest := by
  cases f <;> simp only [decodeOperands] at h ⊢
  · cases h; simp
  · split at h
    · cases h
    · split at h
      · cases h
      · next hr => cases h; exact ⟨_, rfl, by rw [regOfWord_eq_ok hr]⟩
  · split at h
    · cases h
    · cases h; exact ⟨_, rfl, rfl⟩
  · split at h
    · cases h
    · split at h
      · cases h
      · next hc => cases h; exact ⟨_, rfl, by rw [intCodeOfWord_eq_ok hc]⟩
  · split at h
    · cases h
    · cases h
    · split at h
      · cases h
      · next hr =>
        split at h
        · cases h
        · next hq => cases h; exact ⟨_, _, rfl, by rw [regOfWord_eq_ok hr, regOfWord_eq_ok hq]⟩
  · split at h
    · cases h
    · cases h
    · split at h
      · cases h
      · next hr => cases h; exact ⟨_, _, rfl, by rw [regOfWord_eq_ok hr]⟩

end Sys2Proof
end

