-- ==== Sys2Proof/Laws/State.lean ====
section
/-!
SUPPORT. One lemma per field per update of the state, true by `rfl` and given to `simp`, so that no proof unfolds a record
update; the register-file laws; and what registers and cells read as after each update.
-/

namespace Sys2Proof.Machine

/-! ### The register file -/

/-- A register reads as what was written to it. -/
@[simp] theorem RegFile.get_set_same (x : RegFile) (r : Reg) (v : Int) : (x.set r v).get r = v := by
  cases r <;> rfl

/-- Writing a register leaves every other register as it was. -/
theorem RegFile.get_set_other (x : RegFile) {r q : Reg} (v : Int) (h : q ≠ r) : (x.set r v).get q = x.get q := by
  cases r <;> cases q <;> first | rfl | exact absurd rfl h

/-- A register write, both cases at once. -/
theorem RegFile.get_set (x : RegFile) (r q : Reg) (v : Int) :
    (x.set r v).get q = if q = r then v else x.get q := by
  split
  · next h => subst h; exact x.get_set_same q v
  · next h => exact x.get_set_other v h

/-- Two register files that read the same are the same. -/
theorem RegFile.ext_get {x y : RegFile} (h : ∀ r, x.get r = y.get r) : x = y := by
  cases x; cases y
  have h0 := h .r0; have h1 := h .r1; have h2 := h .r2; have h3 := h .r3
  have h4 := h .r4; have h5 := h .r5; have h6 := h .r6; have h7 := h .r7
  have h8 := h .ac; have h9 := h .sp; have h10 := h .fp
  simp only [RegFile.get] at h0 h1 h2 h3 h4 h5 h6 h7 h8 h9 h10
  subst h0 h1 h2 h3 h4 h5 h6 h7 h8 h9 h10
  rfl

/-! ### Fields -/

@[simp] theorem State.setReg_cfg (s : State) (r : Reg) (v : Int) : (s.setReg r v).cfg = s.cfg := rfl
@[simp] theorem State.setReg_x (s : State) (r : Reg) (v : Int) : (s.setReg r v).x = s.x.set r v := rfl
@[simp] theorem State.setReg_pc (s : State) (r : Reg) (v : Int) : (s.setReg r v).pc = s.pc := rfl
@[simp] theorem State.setReg_ef (s : State) (r : Reg) (v : Int) : (s.setReg r v).ef = s.ef := rfl
@[simp] theorem State.setReg_zf (s : State) (r : Reg) (v : Int) : (s.setReg r v).zf = s.zf := rfl
@[simp] theorem State.setReg_df (s : State) (r : Reg) (v : Int) : (s.setReg r v).df = s.df := rfl
@[simp] theorem State.setReg_fs (s : State) (r : Reg) (v : Int) : (s.setReg r v).fs = s.fs := rfl
@[simp] theorem State.setReg_cd (s : State) (r : Reg) (v : Int) : (s.setReg r v).cd = s.cd := rfl
@[simp] theorem State.setReg_mem (s : State) (r : Reg) (v : Int) : (s.setReg r v).mem = s.mem := rfl
@[simp] theorem State.setReg_run (s : State) (r : Reg) (v : Int) : (s.setReg r v).run = s.run := rfl
@[simp] theorem State.setReg_out (s : State) (r : Reg) (v : Int) : (s.setReg r v).out = s.out := rfl
@[simp] theorem State.setReg_inbox (s : State) (r : Reg) (v : Int) : (s.setReg r v).inbox = s.inbox := rfl
@[simp] theorem State.setReg_replies (s : State) (r : Reg) (v : Int) : (s.setReg r v).replies = s.replies := rfl

@[simp] theorem State.setCell_cfg (s : State) (a v : Int) : (s.setCell a v).cfg = s.cfg := rfl
@[simp] theorem State.setCell_x (s : State) (a v : Int) : (s.setCell a v).x = s.x := rfl
@[simp] theorem State.setCell_pc (s : State) (a v : Int) : (s.setCell a v).pc = s.pc := rfl
@[simp] theorem State.setCell_ef (s : State) (a v : Int) : (s.setCell a v).ef = s.ef := rfl
@[simp] theorem State.setCell_zf (s : State) (a v : Int) : (s.setCell a v).zf = s.zf := rfl
@[simp] theorem State.setCell_df (s : State) (a v : Int) : (s.setCell a v).df = s.df := rfl
@[simp] theorem State.setCell_fs (s : State) (a v : Int) : (s.setCell a v).fs = s.fs := rfl
@[simp] theorem State.setCell_cd (s : State) (a v : Int) : (s.setCell a v).cd = s.cd := rfl
@[simp] theorem State.setCell_mem (s : State) (a v : Int) : (s.setCell a v).mem = s.mem.write a.toNat v := rfl
@[simp] theorem State.setCell_run (s : State) (a v : Int) : (s.setCell a v).run = s.run := rfl
@[simp] theorem State.setCell_out (s : State) (a v : Int) : (s.setCell a v).out = s.out := rfl
@[simp] theorem State.setCell_inbox (s : State) (a v : Int) : (s.setCell a v).inbox = s.inbox := rfl
@[simp] theorem State.setCell_replies (s : State) (a v : Int) : (s.setCell a v).replies = s.replies := rfl

@[simp] theorem State.setPc_cfg (s : State) (a : Int) : (s.setPc a).cfg = s.cfg := rfl
@[simp] theorem State.setPc_x (s : State) (a : Int) : (s.setPc a).x = s.x := rfl
@[simp] theorem State.setPc_pc (s : State) (a : Int) : (s.setPc a).pc = a := rfl
@[simp] theorem State.setPc_ef (s : State) (a : Int) : (s.setPc a).ef = s.ef := rfl
@[simp] theorem State.setPc_zf (s : State) (a : Int) : (s.setPc a).zf = s.zf := rfl
@[simp] theorem State.setPc_df (s : State) (a : Int) : (s.setPc a).df = s.df := rfl
@[simp] theorem State.setPc_fs (s : State) (a : Int) : (s.setPc a).fs = s.fs := rfl
@[simp] theorem State.setPc_cd (s : State) (a : Int) : (s.setPc a).cd = s.cd := rfl
@[simp] theorem State.setPc_mem (s : State) (a : Int) : (s.setPc a).mem = s.mem := rfl
@[simp] theorem State.setPc_run (s : State) (a : Int) : (s.setPc a).run = s.run := rfl
@[simp] theorem State.setPc_out (s : State) (a : Int) : (s.setPc a).out = s.out := rfl
@[simp] theorem State.setPc_inbox (s : State) (a : Int) : (s.setPc a).inbox = s.inbox := rfl
@[simp] theorem State.setPc_replies (s : State) (a : Int) : (s.setPc a).replies = s.replies := rfl

@[simp] theorem State.advance_cfg (s : State) (n : Nat) : (s.advance n).cfg = s.cfg := rfl
@[simp] theorem State.advance_x (s : State) (n : Nat) : (s.advance n).x = s.x := rfl
@[simp] theorem State.advance_pc (s : State) (n : Nat) : (s.advance n).pc = s.pc + n := rfl
@[simp] theorem State.advance_ef (s : State) (n : Nat) : (s.advance n).ef = s.ef := rfl
@[simp] theorem State.advance_zf (s : State) (n : Nat) : (s.advance n).zf = s.zf := rfl
@[simp] theorem State.advance_df (s : State) (n : Nat) : (s.advance n).df = s.df := rfl
@[simp] theorem State.advance_fs (s : State) (n : Nat) : (s.advance n).fs = s.fs := rfl
@[simp] theorem State.advance_cd (s : State) (n : Nat) : (s.advance n).cd = s.cd := rfl
@[simp] theorem State.advance_mem (s : State) (n : Nat) : (s.advance n).mem = s.mem := rfl
@[simp] theorem State.advance_run (s : State) (n : Nat) : (s.advance n).run = s.run := rfl
@[simp] theorem State.advance_out (s : State) (n : Nat) : (s.advance n).out = s.out := rfl
@[simp] theorem State.advance_inbox (s : State) (n : Nat) : (s.advance n).inbox = s.inbox := rfl
@[simp] theorem State.advance_replies (s : State) (n : Nat) : (s.advance n).replies = s.replies := rfl

@[simp] theorem State.setFs_cfg (s : State) (v : Int) : (s.setFs v).cfg = s.cfg := rfl
@[simp] theorem State.setFs_x (s : State) (v : Int) : (s.setFs v).x = s.x := rfl
@[simp] theorem State.setFs_pc (s : State) (v : Int) : (s.setFs v).pc = s.pc := rfl
@[simp] theorem State.setFs_ef (s : State) (v : Int) : (s.setFs v).ef = s.ef := rfl
@[simp] theorem State.setFs_zf (s : State) (v : Int) : (s.setFs v).zf = s.zf := rfl
@[simp] theorem State.setFs_df (s : State) (v : Int) : (s.setFs v).df = s.df := rfl
@[simp] theorem State.setFs_fs (s : State) (v : Int) : (s.setFs v).fs = v := rfl
@[simp] theorem State.setFs_cd (s : State) (v : Int) : (s.setFs v).cd = s.cd := rfl
@[simp] theorem State.setFs_mem (s : State) (v : Int) : (s.setFs v).mem = s.mem := rfl
@[simp] theorem State.setFs_run (s : State) (v : Int) : (s.setFs v).run = s.run := rfl
@[simp] theorem State.setFs_out (s : State) (v : Int) : (s.setFs v).out = s.out := rfl
@[simp] theorem State.setFs_inbox (s : State) (v : Int) : (s.setFs v).inbox = s.inbox := rfl
@[simp] theorem State.setFs_replies (s : State) (v : Int) : (s.setFs v).replies = s.replies := rfl

@[simp] theorem State.setCd_cfg (s : State) (n : Nat) : (s.setCd n).cfg = s.cfg := rfl
@[simp] theorem State.setCd_x (s : State) (n : Nat) : (s.setCd n).x = s.x := rfl
@[simp] theorem State.setCd_pc (s : State) (n : Nat) : (s.setCd n).pc = s.pc := rfl
@[simp] theorem State.setCd_ef (s : State) (n : Nat) : (s.setCd n).ef = s.ef := rfl
@[simp] theorem State.setCd_zf (s : State) (n : Nat) : (s.setCd n).zf = s.zf := rfl
@[simp] theorem State.setCd_df (s : State) (n : Nat) : (s.setCd n).df = s.df := rfl
@[simp] theorem State.setCd_fs (s : State) (n : Nat) : (s.setCd n).fs = s.fs := rfl
@[simp] theorem State.setCd_cd (s : State) (n : Nat) : (s.setCd n).cd = n := rfl
@[simp] theorem State.setCd_mem (s : State) (n : Nat) : (s.setCd n).mem = s.mem := rfl
@[simp] theorem State.setCd_run (s : State) (n : Nat) : (s.setCd n).run = s.run := rfl
@[simp] theorem State.setCd_out (s : State) (n : Nat) : (s.setCd n).out = s.out := rfl
@[simp] theorem State.setCd_inbox (s : State) (n : Nat) : (s.setCd n).inbox = s.inbox := rfl
@[simp] theorem State.setCd_replies (s : State) (n : Nat) : (s.setCd n).replies = s.replies := rfl

@[simp] theorem State.setRun_cfg (s : State) (r : RunState) : (s.setRun r).cfg = s.cfg := rfl
@[simp] theorem State.setRun_x (s : State) (r : RunState) : (s.setRun r).x = s.x := rfl
@[simp] theorem State.setRun_pc (s : State) (r : RunState) : (s.setRun r).pc = s.pc := rfl
@[simp] theorem State.setRun_ef (s : State) (r : RunState) : (s.setRun r).ef = s.ef := rfl
@[simp] theorem State.setRun_zf (s : State) (r : RunState) : (s.setRun r).zf = s.zf := rfl
@[simp] theorem State.setRun_df (s : State) (r : RunState) : (s.setRun r).df = s.df := rfl
@[simp] theorem State.setRun_fs (s : State) (r : RunState) : (s.setRun r).fs = s.fs := rfl
@[simp] theorem State.setRun_cd (s : State) (r : RunState) : (s.setRun r).cd = s.cd := rfl
@[simp] theorem State.setRun_mem (s : State) (r : RunState) : (s.setRun r).mem = s.mem := rfl
@[simp] theorem State.setRun_run (s : State) (r : RunState) : (s.setRun r).run = r := rfl
@[simp] theorem State.setRun_out (s : State) (r : RunState) : (s.setRun r).out = s.out := rfl
@[simp] theorem State.setRun_inbox (s : State) (r : RunState) : (s.setRun r).inbox = s.inbox := rfl
@[simp] theorem State.setRun_replies (s : State) (r : RunState) : (s.setRun r).replies = s.replies := rfl

@[simp] theorem State.emit_cfg (s : State) (cs : List Int) : (s.emit cs).cfg = s.cfg := rfl
@[simp] theorem State.emit_x (s : State) (cs : List Int) : (s.emit cs).x = s.x := rfl
@[simp] theorem State.emit_pc (s : State) (cs : List Int) : (s.emit cs).pc = s.pc := rfl
@[simp] theorem State.emit_ef (s : State) (cs : List Int) : (s.emit cs).ef = s.ef := rfl
@[simp] theorem State.emit_zf (s : State) (cs : List Int) : (s.emit cs).zf = s.zf := rfl
@[simp] theorem State.emit_df (s : State) (cs : List Int) : (s.emit cs).df = s.df := rfl
@[simp] theorem State.emit_fs (s : State) (cs : List Int) : (s.emit cs).fs = s.fs := rfl
@[simp] theorem State.emit_cd (s : State) (cs : List Int) : (s.emit cs).cd = s.cd := rfl
@[simp] theorem State.emit_mem (s : State) (cs : List Int) : (s.emit cs).mem = s.mem := rfl
@[simp] theorem State.emit_run (s : State) (cs : List Int) : (s.emit cs).run = s.run := rfl
@[simp] theorem State.emit_out (s : State) (cs : List Int) : (s.emit cs).out = s.out ++ cs := rfl
@[simp] theorem State.emit_inbox (s : State) (cs : List Int) : (s.emit cs).inbox = s.inbox := rfl
@[simp] theorem State.emit_replies (s : State) (cs : List Int) : (s.emit cs).replies = s.replies := rfl

@[simp] theorem State.takeFault_cfg (s : State) (fpc : Int) (e : Raise) : (s.takeFault fpc e).cfg = s.cfg := rfl
@[simp] theorem State.takeFault_x (s : State) (fpc : Int) (e : Raise) : (s.takeFault fpc e).x = s.x := rfl
@[simp] theorem State.takeFault_pc (s : State) (fpc : Int) (e : Raise) : (s.takeFault fpc e).pc = fpc := rfl
@[simp] theorem State.takeFault_ef (s : State) (fpc : Int) (e : Raise) : (s.takeFault fpc e).ef = s.ef := rfl
@[simp] theorem State.takeFault_zf (s : State) (fpc : Int) (e : Raise) : (s.takeFault fpc e).zf = s.zf := rfl
@[simp] theorem State.takeFault_df (s : State) (fpc : Int) (e : Raise) : (s.takeFault fpc e).df = s.df := rfl
@[simp] theorem State.takeFault_fs (s : State) (fpc : Int) (e : Raise) : (s.takeFault fpc e).fs = s.fs := rfl
@[simp] theorem State.takeFault_cd (s : State) (fpc : Int) (e : Raise) : (s.takeFault fpc e).cd = s.cd := rfl
@[simp] theorem State.takeFault_mem (s : State) (fpc : Int) (e : Raise) : (s.takeFault fpc e).mem = s.mem := rfl
@[simp] theorem State.takeFault_run (s : State) (fpc : Int) (e : Raise) : (s.takeFault fpc e).run = .faulted ⟨e.kind, e.info, fpc⟩ := rfl
@[simp] theorem State.takeFault_out (s : State) (fpc : Int) (e : Raise) : (s.takeFault fpc e).out = s.out := rfl
@[simp] theorem State.takeFault_inbox (s : State) (fpc : Int) (e : Raise) : (s.takeFault fpc e).inbox = s.inbox := rfl
@[simp] theorem State.takeFault_replies (s : State) (fpc : Int) (e : Raise) : (s.takeFault fpc e).replies = s.replies := rfl

@[simp] theorem State.compareFlags_cfg (s : State) (d v : Int) : (s.compareFlags d v).cfg = s.cfg := rfl
@[simp] theorem State.compareFlags_x (s : State) (d v : Int) : (s.compareFlags d v).x = s.x := rfl
@[simp] theorem State.compareFlags_pc (s : State) (d v : Int) : (s.compareFlags d v).pc = s.pc := rfl
@[simp] theorem State.compareFlags_ef (s : State) (d v : Int) : (s.compareFlags d v).ef = (s.ef || decide (d = v)) := rfl
@[simp] theorem State.compareFlags_zf (s : State) (d v : Int) : (s.compareFlags d v).zf = (s.zf || decide (v = 0)) := rfl
@[simp] theorem State.compareFlags_df (s : State) (d v : Int) : (s.compareFlags d v).df = s.df := rfl
@[simp] theorem State.compareFlags_fs (s : State) (d v : Int) : (s.compareFlags d v).fs = s.fs := rfl
@[simp] theorem State.compareFlags_cd (s : State) (d v : Int) : (s.compareFlags d v).cd = s.cd := rfl
@[simp] theorem State.compareFlags_mem (s : State) (d v : Int) : (s.compareFlags d v).mem = s.mem := rfl
@[simp] theorem State.compareFlags_run (s : State) (d v : Int) : (s.compareFlags d v).run = s.run := rfl
@[simp] theorem State.compareFlags_out (s : State) (d v : Int) : (s.compareFlags d v).out = s.out := rfl
@[simp] theorem State.compareFlags_inbox (s : State) (d v : Int) : (s.compareFlags d v).inbox = s.inbox := rfl
@[simp] theorem State.compareFlags_replies (s : State) (d v : Int) : (s.compareFlags d v).replies = s.replies := rfl

@[simp] theorem State.clearFlags_cfg (s : State) : (s.clearFlags).cfg = s.cfg := rfl
@[simp] theorem State.clearFlags_x (s : State) : (s.clearFlags).x = s.x := rfl
@[simp] theorem State.clearFlags_pc (s : State) : (s.clearFlags).pc = s.pc := rfl
@[simp] theorem State.clearFlags_ef (s : State) : (s.clearFlags).ef = false := rfl
@[simp] theorem State.clearFlags_zf (s : State) : (s.clearFlags).zf = false := rfl
@[simp] theorem State.clearFlags_df (s : State) : (s.clearFlags).df = false := rfl
@[simp] theorem State.clearFlags_fs (s : State) : (s.clearFlags).fs = s.fs := rfl
@[simp] theorem State.clearFlags_cd (s : State) : (s.clearFlags).cd = s.cd := rfl
@[simp] theorem State.clearFlags_mem (s : State) : (s.clearFlags).mem = s.mem := rfl
@[simp] theorem State.clearFlags_run (s : State) : (s.clearFlags).run = s.run := rfl
@[simp] theorem State.clearFlags_out (s : State) : (s.clearFlags).out = s.out := rfl
@[simp] theorem State.clearFlags_inbox (s : State) : (s.clearFlags).inbox = s.inbox := rfl
@[simp] theorem State.clearFlags_replies (s : State) : (s.clearFlags).replies = s.replies := rfl

/-! ### Registers and cells after an update -/

@[simp] theorem State.reg_setReg_same (s : State) (r : Reg) (v : Int) : (s.setReg r v).reg r = v :=
  s.x.get_set_same r v

theorem State.reg_setReg_other (s : State) {r q : Reg} (v : Int) (h : q ≠ r) : (s.setReg r v).reg q = s.reg q :=
  s.x.get_set_other v h

theorem State.reg_setReg (s : State) (r q : Reg) (v : Int) :
    (s.setReg r v).reg q = if q = r then v else s.reg q := s.x.get_set r q v

@[simp] theorem State.reg_setCell (s : State) (a v : Int) (q : Reg) : (s.setCell a v).reg q = s.reg q := rfl
@[simp] theorem State.reg_setPc (s : State) (a : Int) (q : Reg) : (s.setPc a).reg q = s.reg q := rfl
@[simp] theorem State.reg_advance (s : State) (n : Nat) (q : Reg) : (s.advance n).reg q = s.reg q := rfl
@[simp] theorem State.reg_setFs (s : State) (v : Int) (q : Reg) : (s.setFs v).reg q = s.reg q := rfl
@[simp] theorem State.reg_setCd (s : State) (n : Nat) (q : Reg) : (s.setCd n).reg q = s.reg q := rfl
@[simp] theorem State.reg_setRun (s : State) (r : RunState) (q : Reg) : (s.setRun r).reg q = s.reg q := rfl
@[simp] theorem State.reg_emit (s : State) (cs : List Int) (q : Reg) : (s.emit cs).reg q = s.reg q := rfl
@[simp] theorem State.reg_takeFault (s : State) (fpc : Int) (e : Raise) (q : Reg) : (s.takeFault fpc e).reg q = s.reg q := rfl
@[simp] theorem State.reg_compareFlags (s : State) (d v : Int) (q : Reg) : (s.compareFlags d v).reg q = s.reg q := rfl
@[simp] theorem State.reg_clearFlags (s : State) (q : Reg) : (s.clearFlags).reg q = s.reg q := rfl

@[simp] theorem State.cell_setReg (s : State) (r : Reg) (v : Int) (c : Int) : (s.setReg r v).cell c = s.cell c := rfl
@[simp] theorem State.cell_setPc (s : State) (a : Int) (c : Int) : (s.setPc a).cell c = s.cell c := rfl
@[simp] theorem State.cell_advance (s : State) (n : Nat) (c : Int) : (s.advance n).cell c = s.cell c := rfl
@[simp] theorem State.cell_setFs (s : State) (v : Int) (c : Int) : (s.setFs v).cell c = s.cell c := rfl
@[simp] theorem State.cell_setCd (s : State) (n : Nat) (c : Int) : (s.setCd n).cell c = s.cell c := rfl
@[simp] theorem State.cell_setRun (s : State) (r : RunState) (c : Int) : (s.setRun r).cell c = s.cell c := rfl
@[simp] theorem State.cell_emit (s : State) (cs : List Int) (c : Int) : (s.emit cs).cell c = s.cell c := rfl
@[simp] theorem State.cell_takeFault (s : State) (fpc : Int) (e : Raise) (c : Int) : (s.takeFault fpc e).cell c = s.cell c := rfl
@[simp] theorem State.cell_compareFlags (s : State) (d v : Int) (c : Int) : (s.compareFlags d v).cell c = s.cell c := rfl
@[simp] theorem State.cell_clearFlags (s : State) (c : Int) : (s.clearFlags).cell c = s.cell c := rfl

@[simp] theorem State.wrap_setReg (s : State) (r : Reg) (v : Int) (z : Int) : (s.setReg r v).wrap z = s.wrap z := rfl
@[simp] theorem State.wrap_setCell (s : State) (a v : Int) (z : Int) : (s.setCell a v).wrap z = s.wrap z := rfl
@[simp] theorem State.wrap_setPc (s : State) (a : Int) (z : Int) : (s.setPc a).wrap z = s.wrap z := rfl
@[simp] theorem State.wrap_advance (s : State) (n : Nat) (z : Int) : (s.advance n).wrap z = s.wrap z := rfl
@[simp] theorem State.wrap_setFs (s : State) (v : Int) (z : Int) : (s.setFs v).wrap z = s.wrap z := rfl
@[simp] theorem State.wrap_setCd (s : State) (n : Nat) (z : Int) : (s.setCd n).wrap z = s.wrap z := rfl
@[simp] theorem State.wrap_setRun (s : State) (r : RunState) (z : Int) : (s.setRun r).wrap z = s.wrap z := rfl
@[simp] theorem State.wrap_emit (s : State) (cs : List Int) (z : Int) : (s.emit cs).wrap z = s.wrap z := rfl
@[simp] theorem State.wrap_takeFault (s : State) (fpc : Int) (e : Raise) (z : Int) : (s.takeFault fpc e).wrap z = s.wrap z := rfl
@[simp] theorem State.wrap_compareFlags (s : State) (d v : Int) (z : Int) : (s.compareFlags d v).wrap z = s.wrap z := rfl
@[simp] theorem State.wrap_clearFlags (s : State) (z : Int) : (s.clearFlags).wrap z = s.wrap z := rfl

/-! ### Flags -/

/-- EF after CMP's flag computation. -/
theorem State.compareFlags_ef_iff (s : State) (d v : Int) : (s.compareFlags d v).ef = true ↔ s.ef = true ∨ d = v := by
  simp [State.compareFlags]

/-- ZF after CMP's flag computation. -/
theorem State.compareFlags_zf_iff (s : State) (d v : Int) : (s.compareFlags d v).zf = true ↔ s.zf = true ∨ v = 0 := by
  simp [State.compareFlags]

end Sys2Proof.Machine
end

