-- ==== Sys2Proof/Laws/Memory.lean ====
section
/-!
SUPPORT. The laws of memory: a read after a write to the same cell gives the value written, every other cell is left alone, a
write keeps the canonical form, and equal readings of canonical memories are equal memories.
-/

namespace Sys2Proof.Machine

@[simp] theorem Memory.read_nil (a : Nat) : Memory.read [] a = blankCell := rfl

/-- A cell below every listed address is blank. -/
theorem Memory.read_of_lt {m : Memory} {a : Nat} (h : ∀ p ∈ m, a < p.1) : Memory.read m a = blankCell := by
  induction m with
  | nil => rfl
  | cons p m ih =>
    obtain ⟨b, w⟩ := p
    have hb : a < b := h (b, w) (by simp)
    simp only [Memory.read, if_neg (Nat.ne_of_lt hb)]
    exact ih fun q hq => h q (by simp [hq])

/-- What the canonical form says of a memory's head and tail. -/
theorem Memory.wf_cons_iff {b : Nat} {w : Int} {m : Memory} :
    Memory.wf ((b, w) :: m) ↔ (∀ p ∈ m, b < p.1) ∧ w ≠ blankCell ∧ Memory.wf m := by
  simp only [Memory.wf, List.pairwise_cons, List.mem_cons, forall_eq_or_imp]
  tauto

/-- What a listed entry of a written memory can be. -/
theorem Memory.mem_write {m : Memory} {a : Nat} {v : Int} {p : Nat × Int} (h : p ∈ Memory.write m a v) :
    p = (a, v) ∨ p ∈ m := by
  induction m with
  | nil =>
    simp only [Memory.write] at h
    split at h <;> simp_all
  | cons q m ih =>
    obtain ⟨b, w⟩ := q
    simp only [Memory.write] at h
    split at h
    · split at h
      · exact .inr h
      · simp only [List.mem_cons] at h ⊢; tauto
    · split at h
      · split at h
        · exact .inr (by simp [h])
        · simp only [List.mem_cons] at h ⊢; tauto
      · simp only [List.mem_cons] at h ⊢
        rcases h with h | h
        · exact .inr (.inl h)
        · rcases ih h with h | h
          · exact .inl h
          · exact .inr (.inr h)

/-- A write keeps the canonical form. -/
theorem Memory.write_wf {m : Memory} (h : m.wf) (a : Nat) (v : Int) : (Memory.write m a v).wf := by
  induction m with
  | nil =>
    simp only [Memory.write]
    split
    · exact h
    · next hv => exact Memory.wf_cons_iff.2 ⟨by simp, hv, h⟩
  | cons q m ih =>
    obtain ⟨b, w⟩ := q
    have hq := Memory.wf_cons_iff.1 h
    simp only [Memory.write]
    split
    · next hab =>
      split
      · exact h
      · next hv =>
        refine Memory.wf_cons_iff.2 ⟨?_, hv, h⟩
        intro p hp
        rcases List.mem_cons.1 hp with rfl | hp
        · exact hab
        · exact Nat.lt_trans hab (hq.1 p hp)
    · next hab =>
      split
      · next hEq =>
        split
        · exact hq.2.2
        · next hv => exact Memory.wf_cons_iff.2 ⟨fun p hp => hEq ▸ hq.1 p hp, hv, hq.2.2⟩
      · next hne =>
        refine Memory.wf_cons_iff.2 ⟨?_, hq.2.1, ih hq.2.2⟩
        intro p hp
        rcases Memory.mem_write hp with rfl | hp
        · show b < a; omega
        · exact hq.1 p hp

/-- Reading the cell just written. -/
theorem Memory.read_write_same {m : Memory} (h : m.wf) (a : Nat) (v : Int) : Memory.read (Memory.write m a v) a = v := by
  induction m with
  | nil =>
    simp only [Memory.write]
    split
    · next hv => simp [hv]
    · simp [Memory.read]
  | cons q m ih =>
    obtain ⟨b, w⟩ := q
    have hq := Memory.wf_cons_iff.1 h
    simp only [Memory.write]
    split
    · next hab =>
      split
      · next hv =>
        rw [hv]
        apply Memory.read_of_lt
        intro p hp
        rcases List.mem_cons.1 hp with rfl | hp
        · exact hab
        · exact Nat.lt_trans hab (hq.1 p hp)
      · simp [Memory.read]
    · split
      · next hEq =>
        subst hEq
        split
        · next hv => rw [hv]; exact Memory.read_of_lt hq.1
        · simp [Memory.read]
      · next hne => simp only [Memory.read, if_neg hne]; exact ih hq.2.2

/-- Reading any other cell. -/
theorem Memory.read_write_other (m : Memory) {a c : Nat} (v : Int) (hc : c ≠ a) :
    Memory.read (Memory.write m a v) c = Memory.read m c := by
  induction m with
  | nil =>
    simp only [Memory.write]
    split <;> simp [Memory.read, hc]
  | cons q m ih =>
    obtain ⟨b, w⟩ := q
    simp only [Memory.write]
    split
    · split
      · rfl
      · simp [Memory.read, hc]
    · split
      · next hEq =>
        subst hEq
        split <;> simp [Memory.read, hc]
      · by_cases h : c = b <;> simp [Memory.read, h, ih]

/-- Canonical memories that read the same everywhere are the same. -/
theorem Memory.ext_read {m n : Memory} (hm : m.wf) (hn : n.wf) (h : ∀ a, Memory.read m a = Memory.read n a) : m = n := by
  induction m generalizing n with
  | nil =>
    cases n with
    | nil => rfl
    | cons q n =>
      obtain ⟨b, w⟩ := q
      have := h b
      simp only [Memory.read, if_pos] at this
      exact absurd this.symm (Memory.wf_cons_iff.1 hn).2.1
  | cons p m ih =>
    obtain ⟨a, v⟩ := p
    have hp := Memory.wf_cons_iff.1 hm
    cases n with
    | nil =>
      have := h a
      simp only [Memory.read, if_pos] at this
      exact absurd this hp.2.1
    | cons q n =>
      obtain ⟨b, w⟩ := q
      have hq := Memory.wf_cons_iff.1 hn
      have hab : a = b := by
        rcases Nat.lt_trichotomy a b with hl | he | hl
        · have h1 := h a
          simp only [Memory.read, if_pos, if_neg (Nat.ne_of_lt hl)] at h1
          rw [Memory.read_of_lt fun p hp' => Nat.lt_trans hl (hq.1 p hp')] at h1
          exact absurd h1 hp.2.1
        · exact he
        · have h1 := h b
          simp only [Memory.read, if_pos, if_neg (Nat.ne_of_lt hl)] at h1
          rw [Memory.read_of_lt fun p hp' => Nat.lt_trans hl (hp.1 p hp')] at h1
          exact absurd h1.symm hq.2.1
      subst hab
      have hv : v = w := by simpa [Memory.read] using h a
      subst hv
      congr 1
      apply ih hp.2.2 hq.2.2
      intro c
      by_cases hc : c = a
      · subst hc
        rw [Memory.read_of_lt hp.1, Memory.read_of_lt hq.1]
      · simpa [Memory.read, hc] using h c

/-! ### Cells of a state -/

/-- The cell just written reads as the word written. -/
theorem State.cell_setCell_same {s : State} (h : s.mem.wf) (a v : Int) : (s.setCell a v).cell a = v :=
  Memory.read_write_same h _ v

/-- Every other cell reads as before. -/
theorem State.cell_setCell_other (s : State) {a c : Int} (v : Int) (ha : 0 ≤ a) (hc : 0 ≤ c) (h : c ≠ a) :
    (s.setCell a v).cell c = s.cell c :=
  Memory.read_write_other s.mem v (by omega)

/-- A cell write keeps the canonical form. -/
theorem State.setCell_wf {s : State} (h : s.mem.wf) (a v : Int) : (s.setCell a v).mem.wf := Memory.write_wf h _ v

end Sys2Proof.Machine
end

