-- ==== Sys2Proof/Laws/Word.lean ====
section
/-!
SUPPORT. The laws of `wrap` and of the value domain `V_W` (spec 00_scope.md R8, R9).
-/

namespace Sys2Proof.Machine

@[simp] theorem wrap_unbounded (z : Int) : wrap .unbounded z = z := rfl

/-- Membership in a finite `V_W`, as inequalities. -/
theorem contains_bits_iff (w : Nat) (v : Int) :
    (WordBits.bits w).contains v = true ↔ -(2 ^ (w - 1) : Int) ≤ v ∧ v ≤ (2 ^ (w - 1) : Int) - 1 := by
  simp [WordBits.contains]

@[simp] theorem contains_unbounded (v : Int) : WordBits.unbounded.contains v = true := rfl

/-- A positive width has twice as many words as nonnegative ones. -/
theorem two_pow_width {w : Nat} (h : 1 ≤ w) : (2 ^ w : Int) = 2 * 2 ^ (w - 1) := by
  obtain ⟨k, rfl⟩ := Nat.exists_eq_add_of_le' h
  simp [pow_succ, mul_comm]

/-- Every wrapped integer is a word. -/
theorem contains_wrap (W : WordBits) (z : Int) : W.contains (wrap W z) = true := by
  cases W with
  | unbounded => rfl
  | bits w =>
    have hpos : (0 : Int) < 2 ^ w := by positivity
    have h0 := Int.emod_nonneg (z + 2 ^ (w - 1)) (ne_of_gt hpos)
    have h1 := Int.emod_lt_of_pos (z + 2 ^ (w - 1)) hpos
    rw [contains_bits_iff]
    simp only [wrap]
    rcases Nat.eq_zero_or_pos w with rfl | hw
    · simp at h0 h1 ⊢
    · have h2 := two_pow_width hw
      constructor <;> omega

/-- A word of a machine with at least one bit is its own wrap. -/
theorem wrap_of_contains {W : WordBits} (hW : W ≠ .bits 0) {v : Int} (h : W.contains v = true) : wrap W v = v := by
  cases W with
  | unbounded => rfl
  | bits w =>
    have hw : 1 ≤ w := Nat.one_le_iff_ne_zero.2 fun h0 => hW (by rw [h0])
    rw [contains_bits_iff] at h
    have h2 := two_pow_width hw
    simp only [wrap]
    rw [Int.emod_eq_of_lt (by omega) (by omega)]
    omega

/-- Wrapping an operand first does not change a wrapped sum. -/
@[simp] theorem wrap_wrap_add (W : WordBits) (a b : Int) : wrap W (wrap W a + b) = wrap W (a + b) := by
  cases W with
  | unbounded => rfl
  | bits w =>
    simp only [wrap]
    have h : (a + 2 ^ (w - 1)) % 2 ^ w - 2 ^ (w - 1) + b + 2 ^ (w - 1) = (a + 2 ^ (w - 1)) % 2 ^ w + b := by ring
    rw [h, Int.emod_add_emod]
    congr 2
    ring

/-- Wrapping the first operand does not change a wrapped difference. -/
@[simp] theorem wrap_wrap_sub (W : WordBits) (a b : Int) : wrap W (wrap W a - b) = wrap W (a - b) := by
  simp [sub_eq_add_neg]

/-- Wrapping the second operand does not change a wrapped difference. -/
theorem wrap_sub_wrap (W : WordBits) (a b : Int) : wrap W (a - wrap W b) = wrap W (a - b) := by
  cases W with
  | unbounded => rfl
  | bits w =>
    simp only [wrap]
    have h : a - ((b + 2 ^ (w - 1)) % 2 ^ w - 2 ^ (w - 1)) + 2 ^ (w - 1)
        = (a + 2 ^ (w - 1) + 2 ^ (w - 1)) - (b + 2 ^ (w - 1)) % 2 ^ w := by ring
    rw [h, Int.sub_emod, Int.emod_emod, ← Int.sub_emod]
    congr 2
    ring

/-- The same with a further term. -/
theorem wrap_sub_wrap_sub (W : WordBits) (a b c : Int) : wrap W (a - wrap W b - c) = wrap W (a - b - c) := by
  rw [show a - wrap W b - c = (a - c) - wrap W b by ring, wrap_sub_wrap, show (a - c) - b = a - b - c by ring]

/-- A wrapped integer differs from the integer by a multiple of `2^W`. -/
theorem wrap_bits_emod (w : Nat) (z : Int) : wrap (.bits w) z % 2 ^ w = z % 2 ^ w := by
  simp only [wrap]
  rw [Int.sub_emod, Int.emod_emod, ← Int.sub_emod]
  congr 1
  ring

/-- The parameters of R6 have a positive word width. -/
theorem wordBits_ne_zero_of_wf {c : Config} (h : c.wf = true) : c.wordBits ≠ .bits 0 := by
  intro h0
  simp [Config.wf, h0] at h

/-- With the parameters of R6 every integer from `-1` to `N` is a word (addresses and `N` itself). -/
theorem inDomain_of_address {c : Config} (h : c.wf = true) {v : Int} (h0 : -1 ≤ v) (h1 : v ≤ c.memSize) :
    c.inDomain v := by
  unfold Config.inDomain
  cases hW : c.wordBits with
  | unbounded => rfl
  | bits w =>
    simp [Config.wf, hW] at h
    rw [contains_bits_iff]
    have : (1 : Int) ≤ 2 ^ (w - 1) := one_le_pow₀ (by norm_num)
    omega

end Sys2Proof.Machine
end

