-- ==== Sys2Proof/Laws/Stack.lean ====
section
/-!
SUPPORT. What the stack primitives can do, said once each: `push`, `pop`, a run of pushes, a run of pops (into registers or
discarded). Callers cite these lemmas instead of unfolding the primitives.
-/

namespace Sys2Proof.Machine

/-! ### One push, one pop -/

/-- A push inside memory succeeds. -/
theorem push_ok {s : State} {v : Int} (h0 : 0 ≤ s.reg .sp) (h1 : s.reg .sp < s.cfg.memSize) :
    s.push v = .ok (((s.setCell (s.reg .sp) v).setReg .sp (s.reg .sp + 1)).setFs (s.wrap (s.fs + 1))) := by
  simp [State.push, not_le.2 h1, not_lt.2 h0]

/-- A push at or past the end of memory overflows. -/
theorem push_overflow {s : State} {v : Int} (h : (s.cfg.memSize : Int) ≤ s.reg .sp) :
    s.push v = .error ⟨.stackOverflow, s.reg .sp⟩ := by
  simp [State.push, h]

/-- A push below memory underflows. -/
theorem push_underflow {s : State} {v : Int} (h : s.reg .sp < 0) : s.push v = .error ⟨.stackUnderflow, s.reg .sp⟩ := by
  have : ¬ (s.cfg.memSize : Int) ≤ s.reg .sp := by omega
  simp [State.push, this, h]

/-- Everything a push can do when it succeeds. -/
theorem push_inv {s t : State} {v : Int} (h : s.push v = .ok t) :
    0 ≤ s.reg .sp ∧ s.reg .sp < s.cfg.memSize ∧
      t = ((s.setCell (s.reg .sp) v).setReg .sp (s.reg .sp + 1)).setFs (s.wrap (s.fs + 1)) := by
  rcases lt_or_ge (s.reg .sp) 0 with hn | hn
  · rw [push_underflow hn] at h; cases h
  · rcases lt_or_ge (s.reg .sp) s.cfg.memSize with hl | hl
    · rw [push_ok hn hl] at h; cases h; exact ⟨hn, hl, rfl⟩
    · rw [push_overflow hl] at h; cases h

/-- A pop inside memory succeeds and leaves memory alone. -/
theorem pop_ok {s : State} (h0 : 1 ≤ s.reg .sp) (h1 : s.reg .sp ≤ s.cfg.memSize) :
    s.pop = .ok (s.cell (s.reg .sp - 1), (s.setReg .sp (s.reg .sp - 1)).setFs (s.wrap (s.fs - 1))) := by
  have h2 : ¬ s.reg .sp - 1 < 0 := by omega
  have h3 : ¬ s.reg .sp - 1 ≥ (s.cfg.memSize : Int) := by omega
  simp only [State.pop, if_neg h2, if_neg h3]

/-- A pop with nothing below SP underflows. -/
theorem pop_underflow {s : State} (h : s.reg .sp < 1) : s.pop = .error ⟨.stackUnderflow, s.reg .sp⟩ := by
  have h2 : s.reg .sp - 1 < 0 := by omega
  simp only [State.pop, if_pos h2]

/-- A pop from above memory overflows. -/
theorem pop_overflow {s : State} (h : (s.cfg.memSize : Int) < s.reg .sp) : s.pop = .error ⟨.stackOverflow, s.reg .sp⟩ := by
  have h2 : ¬ s.reg .sp - 1 < 0 := by omega
  have h3 : s.reg .sp - 1 ≥ (s.cfg.memSize : Int) := by omega
  simp only [State.pop, if_neg h2, if_pos h3]

/-- Everything a pop can do when it succeeds. -/
theorem pop_inv {s t : State} {v : Int} (h : s.pop = .ok (v, t)) :
    1 ≤ s.reg .sp ∧ s.reg .sp ≤ s.cfg.memSize ∧ v = s.cell (s.reg .sp - 1) ∧
      t = (s.setReg .sp (s.reg .sp - 1)).setFs (s.wrap (s.fs - 1)) := by
  rcases lt_or_ge (s.reg .sp) 1 with hn | hn
  · rw [pop_underflow hn] at h; cases h
  · rcases lt_or_ge (s.cfg.memSize : Int) (s.reg .sp) with hl | hl
    · rw [pop_overflow hl] at h; cases h
    · rw [pop_ok hn hl] at h; cases h; exact ⟨hn, hl, rfl, rfl⟩

/-! ### A run of pushes -/

/-- `t` is `s` after pushing `vs`: SP and FS have advanced, the words stand at the old SP and above, nothing else changed. -/
structure Pushed (s t : State) (vs : List Int) : Prop where
  sp : t.reg .sp = s.reg .sp + vs.length
  regs : ∀ q, q ≠ .sp → t.reg q = s.reg q
  fs : vs ≠ [] → t.fs = s.wrap (s.fs + vs.length)
  cells : ∀ k (h : k < vs.length), t.cell (s.reg .sp + k) = vs[k]
  others : ∀ a, 0 ≤ a → a < s.reg .sp ∨ s.reg .sp + vs.length ≤ a → t.cell a = s.cell a
  memWf : t.mem.wf
  frame : t = { s with x := t.x, fs := t.fs, mem := t.mem }

/-- One push, in the terms of a run. -/
theorem pushed_one {s : State} {v : Int} (hm : s.mem.wf) (h0 : 0 ≤ s.reg .sp) :
    Pushed s (((s.setCell (s.reg .sp) v).setReg .sp (s.reg .sp + 1)).setFs (s.wrap (s.fs + 1))) [v] where
  sp := by simp
  regs q hq := by simp [State.reg_setReg_other _ _ hq]
  fs _ := by simp
  cells k h := by
    have : k = 0 := by simpa using h
    subst this
    simpa using State.cell_setCell_same hm _ v
  others a ha h := by
    have : a ≠ s.reg .sp := by simp at h; omega
    simpa using State.cell_setCell_other s v h0 ha this
  memWf := State.setCell_wf hm _ _
  frame := rfl

/-- A run of pushes that fits in memory succeeds. -/
theorem pushAll_ok {s : State} (vs : List Int) (hm : s.mem.wf) (h0 : 0 ≤ s.reg .sp)
    (h1 : s.reg .sp + vs.length ≤ s.cfg.memSize) : ∃ t, s.pushAll vs = .ok t ∧ Pushed s t vs := by
  induction vs generalizing s with
  | nil => exact ⟨s, rfl, by simp, fun _ _ => rfl, by simp, by simp, fun _ _ _ => rfl, hm, rfl⟩
  | cons v vs ih =>
    simp only [List.length_cons] at h1
    have hp := pushed_one (v := v) hm h0
    have hpush := push_ok (s := s) (v := v) h0 (by push_cast at h1; omega)
    revert hp hpush
    generalize ((s.setCell (s.reg .sp) v).setReg .sp (s.reg .sp + 1)).setFs (s.wrap (s.fs + 1)) = u
    intro hp hpush
    have hsp : u.reg .sp = s.reg .sp + 1 := by simpa using hp.sp
    have hcfg : u.cfg = s.cfg := by rw [hp.frame]
    have hwrap : ∀ z, u.wrap z = s.wrap z := fun z => by simp [State.wrap, hcfg]
    obtain ⟨t, ht, hP⟩ := ih hp.memWf (by omega) (by rw [hsp, hcfg]; push_cast at h1; omega)
    refine ⟨t, by simp [State.pushAll, hpush, ht], ?_, ?_, ?_, ?_, ?_, hP.memWf, ?_⟩
    · rw [hP.sp, hsp]; push_cast [List.length_cons]; ring
    · intro q hq; rw [hP.regs q hq, hp.regs q hq]
    · intro _
      have hf : u.fs = s.wrap (s.fs + 1) := by simpa using hp.fs (by simp)
      rcases vs with _ | ⟨w, vs⟩
      · simp only [State.pushAll] at ht; cases ht; simpa using hf
      · rw [hP.fs (by simp), hwrap, hf, State.wrap, State.wrap, wrap_wrap_add]
        simp only [List.length_cons]; push_cast; congr 1; ring
    · intro k hk
      rcases k with _ | k
      · have h2 := hP.others (s.reg .sp) h0 (by omega)
        have h3 := hp.cells 0 (by simp)
        simp only [Nat.cast_zero, add_zero] at h3 ⊢
        rw [h2, h3]; rfl
      · have h2 := hP.cells k (by simpa using hk)
        rw [hsp] at h2
        simp only [List.getElem_cons_succ]
        rw [← h2]; congr 1; push_cast; ring
    · intro a ha h
      simp only [List.length_cons, Nat.cast_add, Nat.cast_one] at h
      rw [hP.others a ha (by omega), hp.others a ha (by simp; omega)]
    · rw [hP.frame, hp.frame]

/-- A run of pushes that starts inside or above memory and does not fit overflows at its end, or at SP when SP is past it. -/
theorem pushAll_overflow {s : State} (vs : List Int) (h0 : 0 ≤ s.reg .sp)
    (h1 : (s.cfg.memSize : Int) < s.reg .sp + vs.length) (hv : vs ≠ []) :
    s.pushAll vs = .error ⟨.stackOverflow, max (s.reg .sp) s.cfg.memSize⟩ := by
  induction vs generalizing s with
  | nil => exact absurd rfl hv
  | cons v vs ih =>
    rcases lt_or_ge (s.reg .sp) s.cfg.memSize with hl | hl
    · simp only [State.pushAll, push_ok h0 hl]
      simp only [List.length_cons, Nat.cast_add, Nat.cast_one] at h1
      have hvs : vs ≠ [] := by rintro rfl; simp at h1; omega
      rw [ih (by simp; omega) (by simp; omega) hvs]
      simp
      omega
    · simp only [State.pushAll, push_overflow hl, max_eq_left hl]

/-- A run of pushes from below memory underflows. -/
theorem pushAll_underflow {s : State} (vs : List Int) (h : s.reg .sp < 0) (hv : vs ≠ []) :
    s.pushAll vs = .error ⟨.stackUnderflow, s.reg .sp⟩ := by
  cases vs with
  | nil => exact absurd rfl hv
  | cons v vs => simp only [State.pushAll, push_underflow h]

/-! ### Runs of pops -/

/-- `t` is `s` after `n` pops that wrote registers of `rs` only: SP and FS have retreated, memory is as it was. -/
structure Popped (s t : State) (n : Nat) (rs : List Reg) : Prop where
  sp : t.reg .sp = s.reg .sp - n
  regs : ∀ q, q ≠ .sp → q ∉ rs → t.reg q = s.reg q
  fs : t.fs = if n = 0 then s.fs else s.wrap (s.fs - n)
  frame : t = { s with x := t.x, fs := t.fs }

/-- No pop at all. -/
theorem popped_zero (s : State) (rs : List Reg) : Popped s s 0 rs := ⟨by simp, fun _ _ _ => rfl, by simp, rfl⟩

/-- One pop, its word put into the registers `rs` by further updates that keep SP, FS and everything but `rs`, before `n` more. -/
theorem popped_succ {s u t : State} {n : Nat} {rs qs : List Reg}
    (hsp : u.reg .sp = s.reg .sp - 1) (hregs : ∀ q, q ≠ .sp → q ∉ rs → u.reg q = s.reg q)
    (hfs : u.fs = s.wrap (s.fs - 1)) (hframe : u = { s with x := u.x, fs := u.fs }) (h : Popped u t n qs) :
    Popped s t (n + 1) (rs ++ qs) where
  sp := by rw [h.sp, hsp]; push_cast; ring
  regs q hq hmem := by
    simp only [List.mem_append, not_or] at hmem
    rw [h.regs q hq hmem.2, hregs q hq hmem.1]
  fs := by
    have hw : ∀ z, u.wrap z = s.wrap z := fun z => by rw [hframe]; rfl
    rw [h.fs, hw, hfs]
    rcases Nat.eq_zero_or_pos n with hn | hn
    · subst hn; simp
    · rw [if_neg (by omega), if_neg (by omega), State.wrap, State.wrap, wrap_wrap_sub]
      congr 1; push_cast; ring
  frame := by rw [h.frame, hframe]

/-- A run of pops into registers other than SP, inside memory, succeeds; the registers, if distinct, hold the cells below SP,
the first one the topmost. -/
theorem popInto_ok {s : State} (rs : List Reg) (hr : .sp ∉ rs) (h0 : (rs.length : Int) ≤ s.reg .sp)
    (h1 : s.reg .sp ≤ s.cfg.memSize) :
    ∃ t, s.popInto rs = .ok t ∧ Popped s t rs.length rs ∧
      (rs.Nodup → ∀ k (h : k < rs.length), t.reg rs[k] = s.cell (s.reg .sp - 1 - k)) := by
  induction rs generalizing s with
  | nil => exact ⟨s, rfl, popped_zero s [], fun _ k h => absurd h (by simp)⟩
  | cons r rs ih =>
    simp only [List.mem_cons, not_or] at hr
    simp only [List.length_cons, Nat.cast_add, Nat.cast_one] at h0
    have hpop := pop_ok (s := s) (by omega) h1
    obtain ⟨t, ht, hP, hV⟩ := ih
      (s := ((s.setReg .sp (s.reg .sp - 1)).setFs (s.wrap (s.fs - 1))).setReg r (s.cell (s.reg .sp - 1))) hr.2
      (by simp [State.reg_setReg_other _ _ hr.1]; omega) (by simp [State.reg_setReg_other _ _ hr.1]; omega)
    refine ⟨t, by simp [State.popInto, hpop, ht], ?_, ?_⟩
    · refine popped_succ (rs := [r]) ?_ ?_ (by simp) rfl hP
      · simp [State.reg_setReg_other _ _ hr.1]
      · intro q hq hqr
        simp only [List.mem_singleton] at hqr
        simp [State.reg_setReg, hq, hqr]
    · intro hnd k hk
      obtain ⟨hnot, hnd⟩ := List.nodup_cons.1 hnd
      rcases k with _ | k
      · simp only [List.getElem_cons_zero, Nat.cast_zero, sub_zero]
        rw [hP.regs r (Ne.symm hr.1) hnot]
        simp
      · simp only [List.getElem_cons_succ]
        rw [hV hnd k (by simpa using hk)]
        simp only [State.cell_setReg, State.cell_setFs, State.reg_setReg_other _ _ hr.1, State.reg_setFs,
          State.reg_setReg_same]
        congr 1; push_cast; ring

/-- A run of pops that empties memory underflows, at 0 or at a negative SP. -/
theorem popInto_underflow {s : State} (rs : List Reg) (hr : .sp ∉ rs) (hne : rs ≠ [])
    (h0 : s.reg .sp < rs.length) (h1 : s.reg .sp ≤ s.cfg.memSize) :
    s.popInto rs = .error ⟨.stackUnderflow, min (s.reg .sp) 0⟩ := by
  induction rs generalizing s with
  | nil => exact absurd rfl hne
  | cons r rs ih =>
    simp only [List.mem_cons, not_or] at hr
    simp only [List.length_cons, Nat.cast_add, Nat.cast_one] at h0
    rcases lt_or_ge (s.reg .sp) 1 with hl | hl
    · simp only [State.popInto, pop_underflow hl]
      congr 2; omega
    · have hrs : rs ≠ [] := by rintro rfl; simp at h0; omega
      simp only [State.popInto, pop_ok hl h1]
      rw [ih hr.2 hrs (by simp [State.reg_setReg_other _ _ hr.1]; omega)
        (by simp [State.reg_setReg_other _ _ hr.1]; omega)]
      simp only [State.reg_setReg_other _ _ hr.1, State.reg_setFs, State.reg_setReg_same]
      congr 2; omega

/-- Discarding words inside memory succeeds and changes SP and FS only. -/
theorem discard_ok {s : State} (n : Nat) (h0 : (n : Int) ≤ s.reg .sp) (h1 : s.reg .sp ≤ s.cfg.memSize) :
    ∃ t, s.discard n = .ok t ∧ Popped s t n [] := by
  induction n generalizing s with
  | zero => exact ⟨s, rfl, popped_zero s []⟩
  | succ n ih =>
    push_cast at h0
    have hpop := pop_ok (s := s) (by omega) h1
    obtain ⟨t, ht, hP⟩ := ih (s := (s.setReg .sp (s.reg .sp - 1)).setFs (s.wrap (s.fs - 1))) (by simp; omega) (by simp; omega)
    refine ⟨t, by simp [State.discard, hpop, ht], ?_⟩
    exact popped_succ (rs := []) (by simp) (fun q hq _ => by simp [State.reg_setReg_other _ _ hq]) (by simp) rfl hP

/-- Discarding more words than memory holds below SP underflows. -/
theorem discard_underflow {s : State} (n : Nat) (h : 0 < n) (h0 : s.reg .sp < n) (h1 : s.reg .sp ≤ s.cfg.memSize) :
    s.discard n = .error ⟨.stackUnderflow, min (s.reg .sp) 0⟩ := by
  induction n generalizing s with
  | zero => omega
  | succ n ih =>
    push_cast at h0
    rcases lt_or_ge (s.reg .sp) 1 with hl | hl
    · simp only [State.discard, pop_underflow hl]
      congr 2; omega
    · simp only [State.discard, pop_ok hl h1]
      rw [ih (by omega) (by simp; omega) (by simp; omega)]
      simp only [State.reg_setFs, State.reg_setReg_same]
      congr 2; omega

/-! ### enter and leave -/

/-- What `enter()` saves, in push order (41_stack_frame.md R74): R0 to R7, `pc`, and FS after those nine pushes. -/
def State.frameWords (s : State) : List Int := gprs.map s.reg ++ [s.pc, s.wrap (s.fs + 9)]

/-- What a run of pushes that succeeds does to `pc`, the parameters and FS, whatever memory holds. -/
theorem pushAll_inv {s t : State} {vs : List Int} (h : s.pushAll vs = .ok t) :
    t.pc = s.pc ∧ t.cfg = s.cfg ∧ (vs ≠ [] → t.fs = s.wrap (s.fs + vs.length)) := by
  induction vs generalizing s with
  | nil => cases h; simp
  | cons v vs ih =>
    simp only [State.pushAll] at h
    split at h
    · next u hu =>
      obtain ⟨-, -, rfl⟩ := push_inv hu
      obtain ⟨h1, h2, h3⟩ := ih h
      refine ⟨h1, h2, fun _ => ?_⟩
      rcases vs with _ | ⟨w, vs⟩
      · cases h; simp
      · rw [h3 (by simp)]
        simp only [State.wrap_setFs, State.wrap_setReg, State.wrap_setCell, State.setFs_fs, List.length_cons]
        rw [State.wrap, State.wrap, wrap_wrap_add]
        push_cast; congr 1; ring
    · cases h

/-- A run of pushes in two parts. -/
theorem pushAll_append (s : State) (vs ws : List Int) :
    s.pushAll (vs ++ ws) = match s.pushAll vs with
      | .ok t => t.pushAll ws
      | .error e => .error e := by
  induction vs generalizing s with
  | nil => rfl
  | cons v vs ih =>
    simp only [State.pushAll, List.cons_append]
    split
    · exact ih _
    · rfl

/-- `enter()` is one run of pushes, of `frameWords`, and then the new frame. -/
theorem enter_eq (s : State) :
    s.enter = match s.pushAll s.frameWords with
      | .ok u => .ok ((u.setReg .fp (u.reg .sp)).setFs 0)
      | .error e => .error e := by
  rw [State.frameWords, pushAll_append]
  unfold State.enter
  cases h1 : s.pushAll (gprs.map s.reg) with
  | error e => rfl
  | ok s1 =>
    obtain ⟨hpc, hcfg, hfs⟩ := pushAll_inv h1
    have hfs1 : s1.fs = s.wrap (s.fs + 8) := by simpa [gprs] using hfs (by simp [gprs])
    simp only [State.pushAll, ← hpc]
    cases h2 : s1.push s1.pc with
    | error e => rfl
    | ok s2 =>
      have hfs2 : s2.fs = s.wrap (s.fs + 9) := by
        obtain ⟨-, -, rfl⟩ := push_inv h2
        simp only [State.setFs_fs, State.wrap, hcfg, hfs1, wrap_wrap_add]
        congr 1; ring
      simp only [hfs2]
      cases s2.push (s.wrap (s.fs + 9)) <;> rfl

/-- Everything `enter()` does when the frame fits in memory (41_stack_frame.md R74). -/
theorem enter_ok {s : State} (hm : s.mem.wf) (h0 : 0 ≤ s.reg .sp) (h1 : s.reg .sp + 10 ≤ s.cfg.memSize) :
    ∃ t, s.enter = .ok t ∧ t.reg .sp = s.reg .sp + 10 ∧ t.reg .fp = s.reg .sp + 10 ∧ t.fs = 0 ∧
      (∀ q, q ≠ .sp → q ≠ .fp → t.reg q = s.reg q) ∧
      (∀ k (h : k < s.frameWords.length), t.cell (s.reg .sp + k) = s.frameWords[k]) ∧
      (∀ a, 0 ≤ a → a < s.reg .sp ∨ s.reg .sp + 10 ≤ a → t.cell a = s.cell a) ∧ t.mem.wf ∧
      t = { s with x := t.x, fs := t.fs, mem := t.mem } := by
  have hlen : s.frameWords.length = 10 := rfl
  obtain ⟨u, hu, hP⟩ := pushAll_ok (s := s) s.frameWords hm h0 (by rw [hlen]; exact h1)
  have hsp := hP.sp
  rw [hlen] at hsp
  refine ⟨(u.setReg .fp (u.reg .sp)).setFs 0, by rw [enter_eq, hu], ?_, ?_, rfl, ?_, ?_, ?_, hP.memWf, ?_⟩
  · simpa [State.reg_setReg] using hsp
  · simpa using hsp
  · intro q hq hqf; simp [State.reg_setReg, hqf, hP.regs q hq]
  · intro k hk; simpa using hP.cells k hk
  · intro a ha h; simpa using hP.others a ha (by rw [hlen]; exact h)
  · rw [hP.frame]; rfl

/-- `enter()` with no room for the frame overflows where the first word does not fit. -/
theorem enter_overflow {s : State} (h0 : 0 ≤ s.reg .sp) (h1 : (s.cfg.memSize : Int) < s.reg .sp + 10) :
    s.enter = .error ⟨.stackOverflow, max (s.reg .sp) s.cfg.memSize⟩ := by
  rw [enter_eq, pushAll_overflow s.frameWords h0 (by simpa [State.frameWords, gprs] using h1) (by simp [State.frameWords])]

/-- `enter()` from below memory underflows. -/
theorem enter_underflow {s : State} (h : s.reg .sp < 0) : s.enter = .error ⟨.stackUnderflow, s.reg .sp⟩ := by
  rw [enter_eq, pushAll_underflow s.frameWords h (by simp [State.frameWords])]

/-- What `leave()` reads: the saved frame size `S` (41_stack_frame.md R76). -/
def State.savedSize (s : State) : Int := s.cell (s.reg .fp - 1)

/-- What `leave()` reads: the argument count `n` (41_stack_frame.md R76). -/
def State.savedCount (s : State) : Int := s.cell (s.reg .fp - 11)

/-- The first part of `leave()`: with ten saved words below FP, the state in which the argument count is popped. -/
theorem leave_eq {s : State} (h0 : 10 ≤ s.reg .fp) (h1 : s.reg .fp ≤ s.cfg.memSize) :
    ∃ u : State, s.leave = u.dropArguments (s.cell (s.reg .fp - 2)) ∧ u.reg .sp = s.reg .fp - 10 ∧
      u.reg .fp = s.wrap (s.reg .fp - s.savedSize - 1) ∧ u.reg .ac = s.reg .ac ∧ u.fs = s.wrap (s.savedSize - 9) ∧
      (∀ k (h : k < gprs.length), u.reg gprs[k] = s.cell (s.reg .fp - 10 + k)) ∧
      u = { s with x := u.x, fs := u.fs } := by
  have hp1 := pop_ok (s := s.setReg .sp (s.reg .fp)) (by simp; omega) (by simp; omega)
  simp only [State.reg_setReg_same, State.cell_setReg] at hp1
  have hp2 := pop_ok
    (s := (((s.setReg .sp (s.reg .fp)).setReg .sp (s.reg .fp - 1)).setFs
      ((s.setReg .sp (s.reg .fp)).wrap ((s.setReg .sp (s.reg .fp)).fs - 1))).setFs s.savedSize)
    (by simp; omega) (by simp; omega)
  simp only [State.reg_setReg_same, State.cell_setReg, State.cell_setFs, State.reg_setFs, State.setFs_fs] at hp2
  obtain ⟨u, hu, hP, hV⟩ := popInto_ok (s := (((((s.setReg .sp (s.reg .fp)).setReg .sp (s.reg .fp - 1)).setFs
      ((s.setReg .sp (s.reg .fp)).wrap ((s.setReg .sp (s.reg .fp)).fs - 1))).setFs s.savedSize).setReg .sp
      (s.reg .fp - 1 - 1)).setFs (s.wrap (s.savedSize - 1))) gprs.reverse (by decide)
    (by simp [gprs]; omega) (by simp; omega)
  have hlen : gprs.reverse.length = 8 := rfl
  have hfs := hP.fs
  have hsp := hP.sp
  rw [hlen] at hfs hsp
  simp only [State.reg_setFs, State.reg_setReg_same] at hsp
  refine ⟨u.setReg .fp (s.wrap (s.reg .fp - s.savedSize - 1)), ?_, ?_, by simp, ?_, ?_, ?_, ?_⟩
  · unfold State.leave
    simp only [hp1]
    simp only [State.savedSize] at hp2 hu ⊢
    simp only [hp2]
    simp only [State.wrap_setFs, State.wrap_setReg] at hu ⊢
    simp only [hu]
    rw [show s.reg .fp - 1 - 1 = s.reg .fp - 2 by ring]
  · rw [State.reg_setReg_other _ _ (by decide), hsp]; push_cast; ring
  · rw [State.reg_setReg_other _ _ (by decide), hP.regs .ac (by decide) (by decide)]
    simp [State.reg_setReg]
  · simp only [State.setReg_fs, hfs]
    simp only [State.wrap_setFs, State.wrap_setReg, State.setFs_fs]
    rw [State.wrap, State.wrap, if_neg (by decide), wrap_wrap_sub]
    congr 1; push_cast; ring
  · intro k hk
    have hk8 : k ≤ 7 := Nat.le_of_lt_succ hk
    have hne : gprs[k] ≠ .fp := by
      intro h
      exact absurd (h ▸ List.getElem_mem hk) (by decide)
    refine (State.reg_setReg_other _ _ hne).trans ?_
    have := hV (by decide) (7 - k) (by rw [hlen]; omega)
    rw [List.getElem_reverse] at this
    simp only [State.cell_setReg, State.cell_setFs, State.reg_setFs, State.reg_setReg_same] at this
    have hg : gprs.length - 1 - (7 - k) = k := by simp [gprs]; omega
    simp only [hg] at this
    rw [this]
    congr 1
    have : ((7 - k : Nat) : Int) = 7 - k := by omega
    rw [this]; ring
  · rw [hP.frame]; rfl

/-- Everything `leave()` does when it succeeds inside memory (41_stack_frame.md R75). -/
theorem leave_ok {s : State} (hn : 0 ≤ s.savedCount) (h0 : 11 + s.savedCount ≤ s.reg .fp)
    (h1 : s.reg .fp ≤ s.cfg.memSize) :
    ∃ t, s.leave = .ok t ∧ t.reg .sp = s.reg .fp - 11 - s.savedCount ∧
      t.reg .fp = s.wrap (s.reg .fp - s.savedSize - 1) ∧ t.reg .ac = s.reg .ac ∧
      t.fs = s.wrap (s.savedSize - 10 - s.savedCount) ∧
      (∀ k (h : k < gprs.length), t.reg gprs[k] = s.cell (s.reg .fp - 10 + k)) ∧
      t.pc = s.cell (s.reg .fp - 2) ∧ t = { s with x := t.x, fs := t.fs, pc := t.pc } := by
  obtain ⟨u, hu, hsp, hfp, hac, hfs, hg, hfr⟩ := leave_eq (s := s) (by omega) h1
  have hcfg : u.cfg = s.cfg := by rw [hfr]
  have hcell : ∀ a, u.cell a = s.cell a := fun a => by rw [hfr]; rfl
  have hwrap : ∀ z, u.wrap z = s.wrap z := fun z => by simp [State.wrap, hcfg]
  have hpop := pop_ok (s := u) (by omega) (by rw [hcfg]; omega)
  have hcount : u.cell (u.reg .sp - 1) = s.savedCount := by rw [hcell, hsp, State.savedCount]; congr 1; ring
  obtain ⟨t, ht, hP⟩ := discard_ok (s := (u.setReg .sp (u.reg .sp - 1)).setFs (u.wrap (u.fs - 1))) s.savedCount.toNat
    (by simp; omega) (by simp [hcfg]; omega)
  have hcast : (s.savedCount.toNat : Int) = s.savedCount := Int.toNat_of_nonneg hn
  refine ⟨t.setPc (s.cell (s.reg .fp - 2)), ?_, ?_, ?_, ?_, ?_, ?_, rfl, ?_⟩
  · rw [hu, State.dropArguments, hpop]
    simp only [hcount, if_neg (not_lt.2 hn), ht]
  · have := hP.sp; simp only [State.reg_setFs, State.reg_setReg_same, hcast] at this
    simp only [State.reg_setPc, this, hsp]; ring
  · rw [State.reg_setPc, hP.regs .fp (by decide) (by simp)]; simpa [State.reg_setReg] using hfp
  · rw [State.reg_setPc, hP.regs .ac (by decide) (by simp)]; simpa [State.reg_setReg] using hac
  · simp only [State.setPc_fs, hP.fs, State.setFs_fs, State.wrap_setFs, State.wrap_setReg, hwrap, hfs]
    split
    · next hz => rw [show s.savedCount = 0 by omega, State.wrap, State.wrap, wrap_wrap_sub]; congr 1; ring
    · simp only [State.wrap]
      rw [wrap_wrap_sub, sub_sub, wrap_wrap_sub, hcast]
      congr 1; ring
  · intro k hk
    have hne : gprs[k] ≠ .sp := by
      intro h
      exact absurd (h ▸ List.getElem_mem hk) (by decide)
    have h1 := hP.regs _ hne (by simp)
    simp only [State.reg_setFs, State.reg_setReg_other _ _ hne] at h1
    exact h1.trans (hg k hk)
  · rw [hP.frame, hfr]; rfl

/-- `leave()` with FP above memory overflows at once. -/
theorem leave_overflow {s : State} (h : (s.cfg.memSize : Int) < s.reg .fp) :
    s.leave = .error ⟨.stackOverflow, s.reg .fp⟩ := by
  unfold State.leave
  simp only [pop_overflow (s := s.setReg .sp (s.reg .fp)) (by simpa using h), State.reg_setReg_same]

/-- `leave()` with a negative argument count faults BadArgCount. -/
theorem leave_badArgCount {s : State} (h0 : 11 ≤ s.reg .fp) (h1 : s.reg .fp ≤ s.cfg.memSize) (hn : s.savedCount < 0) :
    s.leave = .error ⟨.badArgCount, s.savedCount⟩ := by
  obtain ⟨u, hu, hsp, -, -, -, -, hfr⟩ := leave_eq (s := s) (by omega) h1
  have hcfg : u.cfg = s.cfg := by rw [hfr]
  have hcell : ∀ a, u.cell a = s.cell a := fun a => by rw [hfr]; rfl
  have hcount : u.cell (u.reg .sp - 1) = s.savedCount := by rw [hcell, hsp, State.savedCount]; congr 1; ring
  rw [hu, State.dropArguments, pop_ok (s := u) (by omega) (by rw [hcfg]; omega)]
  simp only [hcount, if_pos hn]

/-- `leave()` with fewer words below FP than the frame, the count and the arguments take underflows. -/
theorem leave_underflow {s : State} (h1 : s.reg .fp ≤ s.cfg.memSize)
    (h : s.reg .fp < 11 ∨ 0 ≤ s.savedCount ∧ s.reg .fp < 11 + s.savedCount) :
    s.leave = .error ⟨.stackUnderflow, min (s.reg .fp) 0⟩ := by
  rcases lt_or_ge (s.reg .fp) 10 with hl | hl
  · unfold State.leave
    rcases lt_or_ge (s.reg .fp) 1 with h2 | h2
    · simp only [pop_underflow (s := s.setReg .sp (s.reg .fp)) (by simpa using h2), State.reg_setReg_same]
      congr 2; omega
    · simp only [pop_ok (s := s.setReg .sp (s.reg .fp)) (by simpa using h2) (by simpa using h1)]
      rcases lt_or_ge (s.reg .fp) 2 with h3 | h3
      · rw [pop_underflow (by simp; omega)]
        simp; omega
      · rw [pop_ok (by simp; omega) (by simp; omega)]
        simp only
        rw [popInto_underflow gprs.reverse (by decide) (by decide) (by simp [gprs]; omega) (by simp; omega)]
        simp; omega
  · obtain ⟨u, hu, hsp, -, -, -, -, hfr⟩ := leave_eq (s := s) hl h1
    have hcfg : u.cfg = s.cfg := by rw [hfr]
    rw [hu, State.dropArguments]
    rcases lt_or_ge (s.reg .fp) 11 with h2 | h2
    · rw [pop_underflow (by omega)]
      simp only [hsp]
      congr 2; omega
    · have hcell : ∀ a, u.cell a = s.cell a := fun a => by rw [hfr]; rfl
      have hcount : u.cell (u.reg .sp - 1) = s.savedCount := by rw [hcell, hsp, State.savedCount]; congr 1; ring
      rw [pop_ok (s := u) (by omega) (by rw [hcfg]; omega)]
      simp only [hcount]
      obtain ⟨hn, hlt⟩ : 0 ≤ s.savedCount ∧ s.reg .fp < 11 + s.savedCount := by omega
      rw [if_neg (not_lt.2 hn), discard_underflow _ (by omega) (by simp; omega) (by simp [hcfg]; omega)]
      simp; omega

end Sys2Proof.Machine
end

