-- ==== Sys2Proof/Laws/Exec.lean ====
section
/-!
SUPPORT. What the stack primitives leave alone, and, said once, everything the execution of an instruction can do.
-/

namespace Sys2Proof.Machine

/-! ### Frames of the primitives -/

/-- A push changes registers, FS and memory only. -/
theorem push_frame {s t : State} {v : Int} (h : s.push v = .ok t) : t = { s with x := t.x, fs := t.fs, mem := t.mem } := by
  obtain ⟨-, -, rfl⟩ := push_inv h
  rfl

/-- A pop changes registers and FS only. -/
theorem pop_frame {s t : State} {v : Int} (h : s.pop = .ok (v, t)) : t = { s with x := t.x, fs := t.fs } := by
  obtain ⟨-, -, -, rfl⟩ := pop_inv h
  rfl

/-- A run of pushes changes registers, FS and memory only. -/
theorem pushAll_frame {s t : State} {vs : List Int} (h : s.pushAll vs = .ok t) :
    t = { s with x := t.x, fs := t.fs, mem := t.mem } := by
  induction vs generalizing s with
  | nil => cases h; rfl
  | cons v vs ih =>
    simp only [State.pushAll] at h
    split at h
    · next u hu => rw [ih h, push_frame hu]
    · cases h

/-- A run of pops into registers changes registers and FS only. -/
theorem popInto_frame {s t : State} {rs : List Reg} (h : s.popInto rs = .ok t) : t = { s with x := t.x, fs := t.fs } := by
  induction rs generalizing s with
  | nil => cases h; rfl
  | cons r rs ih =>
    simp only [State.popInto] at h
    split at h
    · next u hu => rw [ih h, pop_frame hu]; rfl
    · cases h

/-- A run of discarding pops changes registers and FS only. -/
theorem discard_frame {s t : State} {n : Nat} (h : s.discard n = .ok t) : t = { s with x := t.x, fs := t.fs } := by
  induction n generalizing s with
  | zero => cases h; rfl
  | succ n ih =>
    simp only [State.discard] at h
    split at h
    · next u hu => rw [ih h, pop_frame hu]
    · cases h

/-- `enter()` changes registers, FS and memory only. -/
theorem enter_frame {s t : State} (h : s.enter = .ok t) : t = { s with x := t.x, fs := t.fs, mem := t.mem } := by
  rw [enter_eq] at h
  split at h
  · next u hu => cases h; rw [pushAll_frame hu]; rfl
  · cases h

/-- `leave()` changes registers, FS and `pc` only. -/
theorem leave_frame {s t : State} (h : s.leave = .ok t) : t = { s with x := t.x, fs := t.fs, pc := t.pc } := by
  unfold State.leave at h
  simp only at h
  split at h
  · cases h
  · next h1 =>
    split at h
    · cases h
    · next h2 =>
      split at h
      · cases h
      · next h3 =>
        unfold State.dropArguments at h
        split at h
        · cases h
        · next h4 =>
          split at h
          · cases h
          · split at h
            · cases h
            · next h5 =>
              cases h
              rw [discard_frame h5, pop_frame h4]
              simp only [State.setReg]
              rw [popInto_frame h3, pop_frame h2]
              simp only [State.setFs]
              rw [pop_frame h1]
              rfl

/-! ### The execution of an instruction -/

/-- Everything `exec` can do: the instruction takes a fault, or its rule is carried out. -/
inductive ExecCase (s : State) : Instr → State → Prop where
  | fault (i : Instr) (e : Raise) : ExecCase s i (s.takeFault s.pc e)
  | brk : ExecCase s .brk ((s.advance 1).setRun (.halted .brk))
  | dbg : ExecCase s .dbg ((s.advance 1).setRun (.suspended .debug))
  | load (r : Reg) (v : Int) : ExecCase s (.load r v) ((s.advance 3).setReg r v)
  | mov (r q : Reg) : ExecCase s (.mov r q) ((s.advance 3).setReg r (s.reg q))
  | push (r : Reg) (t : State) : (s.advance 2).push (s.reg r) = .ok t → ExecCase s (.push r) t
  | pop (r : Reg) (v : Int) (t : State) : (s.advance 2).pop = .ok (v, t) → ExecCase s (.pop r) (t.setReg r v)
  | add (a b : Reg) : ExecCase s (.add a b) (s.accumulate 3 (s.reg a + s.reg b))
  | addi (a : Reg) (v : Int) : ExecCase s (.addi a v) (s.accumulate 3 (s.reg a + v))
  | sub (a b : Reg) : ExecCase s (.sub a b) (s.accumulate 3 (s.reg a - s.reg b))
  | subi (a : Reg) (v : Int) : ExecCase s (.subi a v) (s.accumulate 3 (s.reg a - v))
  | mul (a b : Reg) : ExecCase s (.mul a b) (s.accumulate 3 (s.reg a * s.reg b))
  | muli (a : Reg) (v : Int) : ExecCase s (.muli a v) (s.accumulate 3 (s.reg a * v))
  | inc (r : Reg) : ExecCase s (.inc r) (s.stepReg r 1)
  | dec (r : Reg) : ExecCase s (.dec r) (s.stepReg r (-1))
  | cmp (a b : Reg) : ExecCase s (.cmp a b) ((s.advance 3).compareFlags (s.reg a) (s.reg b))
  | clf : ExecCase s .clf (s.advance 1).clearFlags
  | jmp (a : Int) : ExecCase s (.jmp a) (s.jumpIf true a)
  | jz (a : Int) : ExecCase s (.jz a) (s.jumpIf s.condZ a)
  | jnz (a : Int) : ExecCase s (.jnz a) (s.jumpIf s.condNz a)
  | je (a : Int) : ExecCase s (.je a) (s.jumpIf s.condE a)
  | jne (a : Int) : ExecCase s (.jne a) (s.jumpIf s.condNe a)
  | call (a : Int) (t : State) : (s.advance 2).enter = .ok t → ExecCase s (.call a) ((t.setPc a).setCd (t.cd + 1))
  | ret (t : State) : s.cd ≠ 0 → (s.advance 1).leave = .ok t → ExecCase s .ret (t.setCd (t.cd - 1))
  | putChar : s.isAddress (s.reg .sp) → s.isCharacter (s.cell (s.reg .sp)) →
      ExecCase s (.int .putChar) ((s.advance 2).emit [s.cell (s.reg .sp)])
  | putString (cs : List Int) :
      (s.advance 2).scanString ((s.cfg.memSize : Int) - s.reg .sp).toNat (s.reg .sp) = .ok cs →
      ExecCase s (.int .putString) ((s.advance 2).emit (cs ++ [newline]))
  | readLine : ExecCase s (.int .readLine) ((s.advance 2).setRun (.suspended (.input s.pc)))

/-- Every next state of `exec` is one of the cases. -/
theorem exec_cases {i : Instr} {s t : State} (h : exec i s = .next t) : ExecCase s i t := by
  cases i
  case push r =>
    change commit s _ = _ at h
    unfold commit at h
    split at h <;> cases h
    · next h => exact .push _ _ h
    · exact .fault _ _
  case pop r =>
    change commit s _ = _ at h
    unfold commit at h
    split at h <;> cases h
    · next h =>
      split at h <;> cases h
      next h => exact .pop _ _ _ h
    · exact .fault _ _
  case call a =>
    change commit s _ = _ at h
    unfold commit at h
    split at h <;> cases h
    · next h =>
      split at h <;> cases h
      next h => exact .call _ _ h
    · exact .fault _ _
  case ret =>
    change commit s _ = _ at h
    unfold commit at h
    split at h <;> cases h
    · next h =>
      split at h
      · cases h
      · split at h <;> cases h
        next h => exact .ret _ (by assumption) h
    · exact .fault _ _
  case int c =>
    cases c
    · change commit s _ = _ at h
      unfold commit at h
      split at h <;> cases h
      · next h =>
        unfold State.putChar State.memRead at h
        split at h
        · cases h
        · next hx =>
          split at hx <;> cases hx
          split at h <;> cases h
          exact .putChar (by assumption) (by assumption)
      · exact .fault _ _
    · change commit s _ = _ at h
      unfold commit at h
      split at h <;> cases h
      · next h =>
        unfold State.putString at h
        simp only at h
        split at h <;> cases h
        next h => exact .putString _ h
      · exact .fault _ _
    · cases h; exact .readLine
  all_goals (cases h; constructor)

end Sys2Proof.Machine
end

