-- ==== Sys2Proof/Laws/Fetch.lean ====
section
/-!
SUPPORT. What `fetch()` and a run of fetches can do (spec 40_dispatch.md R62).
-/

namespace Sys2Proof.Machine

/-- A fetch inside memory. -/
theorem fetch_ok {s : State} (h : s.isAddress s.pc) : s.fetch = .ok (s.cell s.pc, s.setPc (s.pc + 1)) := by
  simp [State.fetch, not_le.2 h.2, not_lt.2 h.1]

/-- A fetch at or past the end of memory. -/
theorem fetch_endOfMemory {s : State} (h : (s.cfg.memSize : Int) ≤ s.pc) : s.fetch = .error ⟨.endOfMemory, s.pc⟩ := by
  simp [State.fetch, h]

/-- A fetch at a negative address. -/
theorem fetch_badAddress {s : State} (h : s.pc < 0) : s.fetch = .error ⟨.badAddress, s.pc⟩ := by
  have : ¬ (s.cfg.memSize : Int) ≤ s.pc := by omega
  simp [State.fetch, this, h]

/-- Everything a fetch can do when it succeeds. -/
theorem fetch_inv {s t : State} {w : Int} (h : s.fetch = .ok (w, t)) :
    s.isAddress s.pc ∧ w = s.cell s.pc ∧ t = s.setPc (s.pc + 1) := by
  unfold State.fetch at h
  split at h
  · cases h
  · split at h
    · cases h
    · cases h; exact ⟨⟨by omega, by omega⟩, rfl, rfl⟩

/-- A run of fetches inside memory. -/
theorem fetchMany_ok {s : State} (n : Nat) (h0 : 0 ≤ s.pc) (h1 : s.pc + n ≤ s.cfg.memSize) :
    s.fetchMany n = .ok ((List.range n).map (fun k : Nat => s.cell (s.pc + (k : Int))), s.setPc (s.pc + n)) := by
  induction n generalizing s with
  | zero => simp [State.fetchMany, State.setPc]
  | succ n ih =>
    push_cast at h1
    have hf := fetch_ok (s := s) ⟨h0, by omega⟩
    have hm := ih (s := s.setPc (s.pc + 1)) (by simp; omega) (by simp; omega)
    simp only [State.fetchMany, hf, hm, State.cell_setPc, State.setPc_pc]
    rw [List.range_succ_eq_map, List.map_cons, List.map_map]
    have hfun : (fun k : Nat => s.cell (s.pc + 1 + (k : Int))) = (fun k : Nat => s.cell (s.pc + (k : Int))) ∘ Nat.succ := by
      funext k; simp only [Function.comp, Nat.cast_succ]; congr 1; ring
    have hpc : s.pc + 1 + (n : Int) = s.pc + ((n + 1 : Nat) : Int) := by push_cast; ring
    rw [hfun, hpc]
    simp [State.setPc]

/-- A run of fetches that reaches the end of memory. -/
theorem fetchMany_endOfMemory {s : State} (n : Nat) (h0 : 0 ≤ s.pc) (h1 : s.pc ≤ s.cfg.memSize)
    (h2 : (s.cfg.memSize : Int) < s.pc + n) : s.fetchMany n = .error ⟨.endOfMemory, s.cfg.memSize⟩ := by
  induction n generalizing s with
  | zero => simp at h2; omega
  | succ n ih =>
    push_cast at h2
    rcases lt_or_ge s.pc s.cfg.memSize with hl | hl
    · have hm := ih (s := s.setPc (s.pc + 1)) (by simp; omega) (by simp; omega) (by simp; omega)
      simp only [State.fetchMany, fetch_ok (s := s) ⟨h0, hl⟩, hm, State.setPc_cfg]
    · simp only [State.fetchMany, fetch_endOfMemory hl]
      congr 2; omega

/-- The model's own loader keeps the canonical form of memory. -/
theorem placeWords_wf {s : State} (h : s.mem.wf) (a : Int) (ws : List Int) : (s.placeWords a ws).mem.wf := by
  induction ws generalizing s a with
  | nil => exact h
  | cons w ws ih =>
    simp only [State.placeWords]
    split
    · exact ih (State.setCell_wf h a _) _
    · exact ih h _

end Sys2Proof.Machine
end

