-- ==== Sys2Proof/Laws/HostPort.lean ====
section
/-!
SUPPORT. What writing a list of words to memory does (Load, Seed, a delivered line), what the scan of PutString finds, and what a
boundary operation leaves alone (spec 60_exceptions.md R124, 45_interrupt.md R105, R107).
-/

namespace Sys2Proof.Machine

/-- Writing a list of words inside memory succeeds: the words stand from `a` on, every other cell is as before. -/
theorem memWriteList_ok {s : State} (vs : List Int) {a : Int} (hm : s.mem.wf) (h0 : 0 ≤ a)
    (h1 : a + vs.length ≤ s.cfg.memSize) :
    ∃ t, s.memWriteList a vs = .ok t ∧ (∀ k (h : k < vs.length), t.cell (a + k) = vs[k]) ∧
      (∀ b, 0 ≤ b → b < a ∨ a + vs.length ≤ b → t.cell b = s.cell b) ∧ t.mem.wf ∧ t = { s with mem := t.mem } := by
  induction vs generalizing s a with
  | nil => exact ⟨s, rfl, fun k h => absurd h (by simp), fun _ _ _ => rfl, hm, rfl⟩
  | cons v vs ih =>
    simp only [List.length_cons, Nat.cast_add, Nat.cast_one] at h1
    have hw : s.memWrite a v = .ok (s.setCell a v) := by simp [State.memWrite, State.isAddress, h0]; omega
    obtain ⟨t, ht, hc, ho, hwf, hfr⟩ :=
      ih (s := s.setCell a v) (a := a + 1) (State.setCell_wf hm a v) (by omega) (by simp; omega)
    refine ⟨t, by simp [State.memWriteList, hw, ht], ?_, ?_, hwf, ?_⟩
    · intro k hk
      rcases k with _ | k
      · simp only [Nat.cast_zero, add_zero, List.getElem_cons_zero]
        rw [ho a h0 (by omega), State.cell_setCell_same hm]
      · have := hc k (by simpa using hk)
        simp only [List.getElem_cons_succ]
        rw [← this]; congr 1; push_cast; ring
    · intro b hb h
      simp only [List.length_cons, Nat.cast_add, Nat.cast_one] at h
      rw [ho b hb (by omega), State.cell_setCell_other s v h0 hb (by omega)]
    · rw [hfr]; rfl

/-- Whatever it writes, a list of words changes memory only. -/
theorem memWriteList_frame {s t : State} {vs : List Int} {a : Int} (h : s.memWriteList a vs = .ok t) :
    t = { s with mem := t.mem } := by
  induction vs generalizing s a with
  | nil => cases h; rfl
  | cons v vs ih =>
    simp only [State.memWriteList] at h
    split at h
    · next u hu =>
      have hu' : u = { s with mem := u.mem } := by
        simp only [State.memWrite] at hu
        split at hu <;> cases hu
        rfl
      rw [ih h, hu']
    · cases h

/-- The string at `a`: the scan answers the codes before the first zero cell. -/
theorem scanString_ok {s : State} (cs : List Int) {fuel : Nat} {a : Int} (h0 : 0 ≤ a)
    (h1 : a + cs.length < s.cfg.memSize) (hf : cs.length < fuel)
    (hc : ∀ k (h : k < cs.length), s.cell (a + k) = cs[k] ∧ cs[k] ≠ 0 ∧ s.isCharacter cs[k])
    (hz : s.cell (a + cs.length) = 0) : s.scanString fuel a = .ok cs := by
  induction cs generalizing fuel a with
  | nil =>
    obtain ⟨fuel, rfl⟩ := Nat.exists_eq_add_of_le' hf
    simp only [List.length_nil, Nat.cast_zero, add_zero] at h1 hz
    simp [State.scanString, State.memRead, State.isAddress, h0, h1, hz]
  | cons c cs ih =>
    obtain ⟨fuel, rfl⟩ := Nat.exists_eq_add_of_le' (Nat.lt_of_le_of_lt (Nat.zero_le _) hf)
    simp only [List.length_cons, Nat.cast_add, Nat.cast_one] at h1 hz hf
    obtain ⟨h2, h3, h4⟩ := hc 0 (by simp)
    simp only [Nat.cast_zero, add_zero, List.getElem_cons_zero] at h2 h3 h4
    have hrec := ih (fuel := fuel) (a := a + 1) (by omega) (by omega) (by omega)
      (fun k hk => by
        have := hc (k + 1) (by simpa using hk)
        simp only [List.getElem_cons_succ, Nat.cast_add, Nat.cast_one] at this
        rwa [show a + 1 + (k : Int) = a + (k + 1) by ring])
      (by rw [← hz]; congr 1; ring)
    have hread : s.memRead a = .ok c := by rw [State.memRead, if_pos ⟨h0, by omega⟩, h2]
    simp [State.scanString, hread, h3, h4, hrec]

/-- A run of character codes up to the end of memory, with no zero cell. -/
theorem scanString_end {s : State} (cs : List Int) {fuel : Nat} {a : Int} (h0 : 0 ≤ a)
    (h1 : a + cs.length = s.cfg.memSize) (hf : cs.length ≤ fuel)
    (hc : ∀ k (h : k < cs.length), s.cell (a + k) = cs[k] ∧ cs[k] ≠ 0 ∧ s.isCharacter cs[k]) :
    s.scanString fuel a = .error ⟨.badAddress, s.cfg.memSize⟩ := by
  induction cs generalizing fuel a with
  | nil =>
    simp only [List.length_nil, Nat.cast_zero, add_zero] at h1
    subst h1
    cases fuel <;> simp [State.scanString, State.memRead, State.isAddress]
  | cons c cs ih =>
    obtain ⟨fuel, rfl⟩ := Nat.exists_eq_add_of_le' (Nat.le_trans (by simp) hf : 1 ≤ fuel)
    simp only [List.length_cons, Nat.cast_add, Nat.cast_one] at h1 hf
    obtain ⟨h2, h3, h4⟩ := hc 0 (by simp)
    simp only [Nat.cast_zero, add_zero, List.getElem_cons_zero] at h2 h3 h4
    have hrec := ih (fuel := fuel) (a := a + 1) (by omega) (by omega) (by omega)
      (fun k hk => by
        have := hc (k + 1) (by simpa using hk)
        simp only [List.getElem_cons_succ, Nat.cast_add, Nat.cast_one] at this
        rwa [show a + 1 + (k : Int) = a + (k + 1) by ring])
    have hread : s.memRead a = .ok c := by rw [State.memRead, if_pos ⟨h0, by omega⟩, h2]
    simp [State.scanString, hread, h3, h4, hrec]

/-- A run of character codes followed by a word that is no character code. -/
theorem scanString_badCharacter {s : State} (cs : List Int) {fuel : Nat} {a : Int} (h0 : 0 ≤ a)
    (h1 : a + cs.length < s.cfg.memSize) (hf : cs.length < fuel)
    (hc : ∀ k (h : k < cs.length), s.cell (a + k) = cs[k] ∧ cs[k] ≠ 0 ∧ s.isCharacter cs[k])
    (hb : ¬ s.isCharacter (s.cell (a + cs.length))) :
    s.scanString fuel a = .error ⟨.badCharacter, s.cell (a + cs.length)⟩ := by
  induction cs generalizing fuel a with
  | nil =>
    obtain ⟨fuel, rfl⟩ := Nat.exists_eq_add_of_le' hf
    simp only [List.length_nil, Nat.cast_zero, add_zero] at h1 hb ⊢
    have hz : s.cell a ≠ 0 := by
      intro hz; apply hb; rw [hz]; exact ⟨le_refl _, by positivity⟩
    have hread : s.memRead a = .ok (s.cell a) := by rw [State.memRead, if_pos ⟨h0, h1⟩]
    simp only [State.scanString, hread, if_neg hz, if_neg hb]
  | cons c cs ih =>
    obtain ⟨fuel, rfl⟩ := Nat.exists_eq_add_of_le' (Nat.lt_of_le_of_lt (Nat.zero_le _) hf)
    simp only [List.length_cons, Nat.cast_add, Nat.cast_one] at h1 hb hf ⊢
    obtain ⟨h2, h3, h4⟩ := hc 0 (by simp)
    simp only [Nat.cast_zero, add_zero, List.getElem_cons_zero] at h2 h3 h4
    have hrec := ih (fuel := fuel) (a := a + 1) (by omega) (by omega) (by omega)
      (fun k hk => by
        have := hc (k + 1) (by simpa using hk)
        simp only [List.getElem_cons_succ, Nat.cast_add, Nat.cast_one] at this
        rwa [show a + 1 + (k : Int) = a + (k + 1) by ring])
      (by rwa [show a + 1 + (cs.length : Int) = a + (cs.length + 1) by ring])
    have hread : s.memRead a = .ok c := by rw [State.memRead, if_pos ⟨h0, by omega⟩, h2]
    rw [show a + 1 + (cs.length : Int) = a + (cs.length + 1) by ring] at hrec
    simp only [State.scanString, hread, if_neg h3, if_pos h4, hrec]

/-- Every code the scan answers is a character code. -/
theorem scanString_characters {s : State} {fuel : Nat} {a : Int} {cs : List Int} (h : s.scanString fuel a = .ok cs) :
    ∀ c ∈ cs, s.isCharacter c := by
  induction fuel generalizing a cs with
  | zero => simp [State.scanString] at h
  | succ fuel ih =>
    simp only [State.scanString] at h
    split at h
    · cases h
    · split at h
      · cases h; simp
      · split at h
        · next hv =>
          split at h
          · next ds hds =>
            cases h
            intro c hc
            rcases List.mem_cons.1 hc with rfl | hc
            · exact hv
            · exact ih hds c hc
          · cases h
        · cases h

/-! ### What a boundary operation can do -/

/-- A delivered line is stored, which changes registers, memory and the run state only, or it faults the INT at `fpc`. -/
theorem readLineDeliver_cases (s : State) (fpc : Int) (line : List Int) :
    (∃ t, s.readLineStore line = .ok t ∧ s.readLineDeliver fpc line = t ∧
      t = { s with x := t.x, mem := t.mem, run := .running }) ∨
    ∃ e, s.readLineStore line = .error e ∧ s.readLineDeliver fpc line = s.takeFault fpc e := by
  unfold State.readLineDeliver
  cases hs : s.readLineStore line with
  | error e => exact .inr ⟨e, rfl, rfl⟩
  | ok t =>
    refine .inl ⟨t, rfl, rfl, ?_⟩
    unfold State.readLineStore at hs
    simp only at hs
    split at hs
    · cases hs
    · split at hs
      · cases hs
      · split at hs <;> cases hs
        next h => rw [memWriteList_frame h]; simp [State.setReg, State.setRun]

/-- Everything an accepted boundary operation can do, and in which run state. -/
inductive HostCase (s : State) : HostOp → State → Prop where
  | load (a : Int) (ws : List Int) (t : State) : s.run = .ready → 0 ≤ a → a + ws.length ≤ s.cfg.memSize →
      ws.all s.cfg.wordBits.contains = true → s.memWriteList a ws = .ok t → HostCase s (.load a ws) t
  | seed (a : Int) (ws : List Int) (t : State) : s.run = .ready → 0 ≤ a → a + ws.length ≤ s.cfg.memSize →
      ws.all s.cfg.wordBits.contains = true → s.memWriteList a ws = .ok t → HostCase s (.seed a ws) t
  | setEntry (a : Int) : s.run = .ready → s.cfg.inDomain a → HostCase s (.setEntry a) (s.setPc a)
  | run : s.run = .ready → HostCase s .run (s.setRun .running)
  | deliverLine (fpc : Int) (line : List Int) : s.run = .suspended (.input fpc) → s.acceptsLine line = true →
      HostCase s (.deliverLine line) (s.readLineDeliver fpc line)
  | resume : s.run = .suspended .debug → HostCase s .resume (s.setRun .running)
  | terminate : s.run = .suspended .debug → HostCase s .terminate (s.setRun (.halted .debugTerminate))

/-- Every state an accepted boundary operation answers is one of the cases. -/
theorem hostAct_cases {op : HostOp} {s t : State} (h : hostAct op s = some t) : HostCase s op t := by
  cases op <;>
    simp only [hostAct, hostSeed, hostLoad, hostSetEntry, hostRun, hostDeliverLine, hostResume, hostTerminate] at h
  · split at h
    · next hc => split at h <;> cases h; exact .load _ _ _ hc.1 hc.2.1 hc.2.2.1 hc.2.2.2 (by assumption)
    · cases h
  · split at h
    · next hc => split at h <;> cases h; exact .seed _ _ _ hc.1 hc.2.1 hc.2.2.1 hc.2.2.2 (by assumption)
    · cases h
  · split at h <;> cases h
    next hc => exact .setEntry _ hc.1 hc.2
  · split at h <;> cases h
    exact .run (by assumption)
  · split at h
    · next hr => split at h <;> cases h; exact .deliverLine _ _ hr (by assumption)
    · cases h
  · split at h <;> cases h
    exact .resume (by assumption)
  · split at h <;> cases h
    exact .terminate (by assumption)

/-- Everything the host's turn can do. -/
theorem hostTurn_cases (s : State) :
    (s.inbox = [] ∧ s.hostTurn = s) ∨
    ∃ op rest, s.inbox = op :: rest ∧
      ((∃ t, hostAct op s = some t ∧ s.hostTurn = { t with inbox := rest, replies := t.replies ++ [.accepted] }) ∨
        hostAct op s = none ∧ s.hostTurn = { s with inbox := rest, replies := s.replies ++ [.refused] }) := by
  unfold State.hostTurn
  split
  · next h => exact .inl ⟨h, rfl⟩
  · next op rest h =>
    split
    · next t ht => exact .inr ⟨op, rest, h, .inl ⟨t, ht, rfl⟩⟩
    · next ht => exact .inr ⟨op, rest, h, .inr ⟨ht, rfl⟩⟩

end Sys2Proof.Machine
end

