-- ==== Sys2Proof/Laws/PerInstr.lean ====
section
/-!
SUPPORT. Statements about every instruction, one lemma per constructor (LAWS.json): an encoding has as many words as the
instruction has, the length its format gives (spec 30_encoding.md R45, R51), and it begins with an opcode of the opcode map (R52).
-/

namespace Sys2Proof.Laws.EncodeLength

/-- The encoding of `i` has `i.length` words, one to three of them, and its opcode is a row of the opcode map of that length. -/
def Statement (i : Instr) : Prop :=
  (encode i).length = i.length ∧ 1 ≤ i.length ∧ i.length ≤ 3 ∧
    ∃ row ∈ opcodeMap, row.opcode = i.opcode ∧ row.format.arity + 1 = i.length

theorem brk : Statement .brk :=
  ⟨rfl, by simp [Instr.length], by simp [Instr.length], ⟨1, "BRK", .f0⟩, by decide, rfl, rfl⟩

theorem dbg : Statement .dbg :=
  ⟨rfl, by simp [Instr.length], by simp [Instr.length], ⟨2, "DBG", .f0⟩, by decide, rfl, rfl⟩

theorem load (r : Reg) (v : Int) : Statement (.load r v) :=
  ⟨rfl, by simp [Instr.length], by simp [Instr.length], ⟨3, "LOAD", .f2ri⟩, by decide, rfl, rfl⟩

theorem mov (rd rs : Reg) : Statement (.mov rd rs) :=
  ⟨rfl, by simp [Instr.length], by simp [Instr.length], ⟨4, "MOV", .f2rr⟩, by decide, rfl, rfl⟩

theorem push (r : Reg) : Statement (.push r) :=
  ⟨rfl, by simp [Instr.length], by simp [Instr.length], ⟨5, "PUSH", .f1r⟩, by decide, rfl, rfl⟩

theorem pop (r : Reg) : Statement (.pop r) :=
  ⟨rfl, by simp [Instr.length], by simp [Instr.length], ⟨6, "POP", .f1r⟩, by decide, rfl, rfl⟩

theorem add (ra rb : Reg) : Statement (.add ra rb) :=
  ⟨rfl, by simp [Instr.length], by simp [Instr.length], ⟨7, "ADD", .f2rr⟩, by decide, rfl, rfl⟩

theorem addi (ra : Reg) (v : Int) : Statement (.addi ra v) :=
  ⟨rfl, by simp [Instr.length], by simp [Instr.length], ⟨8, "ADDI", .f2ri⟩, by decide, rfl, rfl⟩

theorem sub (ra rb : Reg) : Statement (.sub ra rb) :=
  ⟨rfl, by simp [Instr.length], by simp [Instr.length], ⟨9, "SUB", .f2rr⟩, by decide, rfl, rfl⟩

theorem subi (ra : Reg) (v : Int) : Statement (.subi ra v) :=
  ⟨rfl, by simp [Instr.length], by simp [Instr.length], ⟨10, "SUBI", .f2ri⟩, by decide, rfl, rfl⟩

theorem mul (ra rb : Reg) : Statement (.mul ra rb) :=
  ⟨rfl, by simp [Instr.length], by simp [Instr.length], ⟨11, "MUL", .f2rr⟩, by decide, rfl, rfl⟩

theorem muli (ra : Reg) (v : Int) : Statement (.muli ra v) :=
  ⟨rfl, by simp [Instr.length], by simp [Instr.length], ⟨12, "MULI", .f2ri⟩, by decide, rfl, rfl⟩

theorem inc (r : Reg) : Statement (.inc r) :=
  ⟨rfl, by simp [Instr.length], by simp [Instr.length], ⟨13, "INC", .f1r⟩, by decide, rfl, rfl⟩

theorem dec (r : Reg) : Statement (.dec r) :=
  ⟨rfl, by simp [Instr.length], by simp [Instr.length], ⟨14, "DEC", .f1r⟩, by decide, rfl, rfl⟩

theorem cmp (rd rs : Reg) : Statement (.cmp rd rs) :=
  ⟨rfl, by simp [Instr.length], by simp [Instr.length], ⟨15, "CMP", .f2rr⟩, by decide, rfl, rfl⟩

theorem clf : Statement .clf :=
  ⟨rfl, by simp [Instr.length], by simp [Instr.length], ⟨16, "CLF", .f0⟩, by decide, rfl, rfl⟩

theorem jmp (a : Int) : Statement (.jmp a) :=
  ⟨rfl, by simp [Instr.length], by simp [Instr.length], ⟨17, "JMP", .f1t⟩, by decide, rfl, rfl⟩

theorem jz (a : Int) : Statement (.jz a) :=
  ⟨rfl, by simp [Instr.length], by simp [Instr.length], ⟨18, "JZ", .f1t⟩, by decide, rfl, rfl⟩

theorem jnz (a : Int) : Statement (.jnz a) :=
  ⟨rfl, by simp [Instr.length], by simp [Instr.length], ⟨19, "JNZ", .f1t⟩, by decide, rfl, rfl⟩

theorem je (a : Int) : Statement (.je a) :=
  ⟨rfl, by simp [Instr.length], by simp [Instr.length], ⟨20, "JE", .f1t⟩, by decide, rfl, rfl⟩

theorem jne (a : Int) : Statement (.jne a) :=
  ⟨rfl, by simp [Instr.length], by simp [Instr.length], ⟨21, "JNE", .f1t⟩, by decide, rfl, rfl⟩

theorem call (a : Int) : Statement (.call a) :=
  ⟨rfl, by simp [Instr.length], by simp [Instr.length], ⟨22, "CALL", .f1t⟩, by decide, rfl, rfl⟩

theorem ret : Statement .ret :=
  ⟨rfl, by simp [Instr.length], by simp [Instr.length], ⟨23, "RET", .f0⟩, by decide, rfl, rfl⟩

theorem int (c : IntCode) : Statement (.int c) :=
  ⟨rfl, by simp [Instr.length], by simp [Instr.length], ⟨24, "INT", .f1c⟩, by decide, rfl, rfl⟩

end Sys2Proof.Laws.EncodeLength
end

