-- ==== Sys2Proof/Tests/Slice0.lean ====
section
/-!
SUPPORT. The model's own tests, each one step or less: words written out from the encoding tables of spec 30_encoding.md, vectors
of spec 95_test_vectors.md (named in each docstring), the refusals of `wellFormed`, and for each obligation with hypotheses a
state and operands that meet them (`test_witness_...`), at boundary values.
-/

namespace Sys2Proof.Tests

open Sys2Proof.Machine

/-! ### Helpers -/

/-- `s` about to run the words `ws` at `a`. -/
def start (a : Int) (ws : List Int) (s : State) : State := ((s.setPc a).placeWords a ws).setRun .running

/-- The next state of an outcome; every outcome of this model is one. -/
def result (o : Host.Outcome State Fault Refusal) (s : State) : State :=
  match o with
  | .next t => t
  | .fault _ => s
  | .refused _ => s

/-- The state after one step. -/
def after (s : State) : State := result (step s) s

/-- The state after the host has done `op`. -/
def afterHost (op : HostOp) (s : State) : State := after { s with inbox := [op] }

/-- The reset state of the vectors with words of 32 bits. -/
def reset32 : State := State.construct ⟨256, .bits 32, 128, 1114111⟩

/-- A machine of 8-bit words. -/
def small : Config := ⟨100, .bits 8, 40, 127⟩

/-! ### WellFormed: each check refuses an ill-formed term -/

theorem test_small_is_a_machine : small.wf = true := by decide
theorem test_wf_load : wellFormed small (.load .r0 127) = true ∧ wellFormed small (.load .r0 128) = false := by decide
theorem test_wf_addi : wellFormed small (.addi .r0 (-128)) = true ∧ wellFormed small (.addi .r0 (-129)) = false := by decide
theorem test_wf_subi : wellFormed small (.subi .r0 127) = true ∧ wellFormed small (.subi .r0 128) = false := by decide
theorem test_wf_muli : wellFormed small (.muli .r0 127) = true ∧ wellFormed small (.muli .r0 128) = false := by decide
theorem test_wf_jmp : wellFormed small (.jmp 127) = true ∧ wellFormed small (.jmp 128) = false := by decide
theorem test_wf_jz : wellFormed small (.jz 127) = true ∧ wellFormed small (.jz (-129)) = false := by decide
theorem test_wf_jnz : wellFormed small (.jnz 127) = true ∧ wellFormed small (.jnz 128) = false := by decide
theorem test_wf_je : wellFormed small (.je 127) = true ∧ wellFormed small (.je 128) = false := by decide
theorem test_wf_jne : wellFormed small (.jne 127) = true ∧ wellFormed small (.jne 128) = false := by decide
theorem test_wf_call : wellFormed small (.call 127) = true ∧ wellFormed small (.call 128) = false := by decide

/-- The constraints of spec 00_scope.md R6, one broken at a time. -/
theorem test_config_constraints :
    Config.reference.wf = true ∧ Config.wf ⟨0, .unbounded, 0, 127⟩ = false ∧ Config.wf ⟨4, .unbounded, 5, 127⟩ = false ∧
      Config.wf ⟨4, .unbounded, 4, 126⟩ = false ∧ Config.wf ⟨4, .bits 7, 4, 127⟩ = false ∧
      Config.wf ⟨128, .bits 8, 4, 127⟩ = false ∧ Config.wf ⟨127, .bits 8, 4, 127⟩ = true := by decide

/-! ### Decoding: words written out from 30_encoding.md R15, R51, R52 -/

theorem test_decode_brk : decode [1] = .ok (.brk, []) := rfl
theorem test_decode_dbg : decode [2] = .ok (.dbg, []) := rfl
theorem test_decode_load : decode [3, 5, -42, 1] = .ok (.load .r5 (-42), [1]) := rfl
theorem test_decode_mov : decode [4, 9, 0] = .ok (.mov .sp .r0, []) := rfl
theorem test_decode_push : decode [5, 8] = .ok (.push .ac, []) := rfl
theorem test_decode_pop : decode [6, 4] = .ok (.pop .r4, []) := rfl
theorem test_decode_add : decode [7, 1, 2] = .ok (.add .r1 .r2, []) := rfl
theorem test_decode_addi : decode [8, 3, -4] = .ok (.addi .r3 (-4), []) := rfl
theorem test_decode_sub : decode [9, 6, 7] = .ok (.sub .r6 .r7, []) := rfl
theorem test_decode_subi : decode [10, 0, 5] = .ok (.subi .r0 5, []) := rfl
theorem test_decode_mul : decode [11, 10, 8] = .ok (.mul .fp .ac, []) := rfl
theorem test_decode_muli : decode [12, 2, 7] = .ok (.muli .r2 7, []) := rfl
theorem test_decode_inc : decode [13, 1] = .ok (.inc .r1, []) := rfl
theorem test_decode_dec : decode [14, 5] = .ok (.dec .r5, []) := rfl
theorem test_decode_cmp : decode [15, 0, 1] = .ok (.cmp .r0 .r1, []) := rfl
theorem test_decode_clf : decode [16] = .ok (.clf, []) := rfl
theorem test_decode_jmp : decode [17, 20] = .ok (.jmp 20, []) := rfl
theorem test_decode_jz : decode [18, 30] = .ok (.jz 30, []) := rfl
theorem test_decode_jnz : decode [19, 6] = .ok (.jnz 6, []) := rfl
theorem test_decode_je : decode [20, 20] = .ok (.je 20, []) := rfl
theorem test_decode_jne : decode [21, 6] = .ok (.jne 6, []) := rfl
theorem test_decode_call : decode [22, 8] = .ok (.call 8, []) := rfl
theorem test_decode_ret : decode [23] = .ok (.ret, []) := rfl
theorem test_decode_int : decode [24, 2] = .ok (.int .readLine, []) := rfl

/-- R53, R48, R108, and a word missing at the end. -/
theorem test_decode_rejects :
    decode [0] = .error (.invalidOpcode 0) ∧ decode [25] = .error (.invalidOpcode 25) ∧
      decode [-1] = .error (.invalidOpcode (-1)) ∧ decode [4, 12, -1] = .error (.badRegister 12) ∧
      decode [4, 0, 11] = .error (.badRegister 11) ∧ decode [24, 3] = .error (.badInterrupt 3) ∧
      decode [3, 11] = .error .truncated := ⟨rfl, rfl, rfl, rfl, rfl, rfl, rfl⟩

/-- The opcode map and the decoder's lookup give each opcode the same format. -/
theorem test_opcode_map_agrees :
    ∀ row ∈ opcodeMap, (opcodeForm row.opcode).map Form.format = some row.format := by decide

/-- No opcode stands twice in the opcode map. -/
theorem test_opcodes_are_distinct : (opcodeMap.map OpcodeRow.opcode).Pairwise (· ≠ ·) := by decide

/-- An opcode-table number in slots of 32 bits (log entry 8). -/
theorem test_table_word_load : decodeTableWord 96 (3 + 1 * 2 ^ 32 + (2 ^ 32 - 5) * 2 ^ 64) = some (.load .r1 (-5)) := by decide
theorem test_table_word_short : decodeTableWord 8 3 = some (.load .r0 0) := by decide
theorem test_fetch_word_runs_it : (after (State.reset.withFetchWord 32 1)).run = .halted .brk := by decide

/-! ### Dispatch -/

/-- V-D1, V-D2. -/
theorem test_invalid_opcode :
    (after (start 0 [0] State.reset)).run = .faulted ⟨.invalidOpcode, 0, 0⟩ ∧
      (after (start 0 [25] State.reset)).run = .faulted ⟨.invalidOpcode, 25, 0⟩ := by decide

/-- V-D4, V-D5. -/
theorem test_fetch_outside_memory :
    (after (start 256 [] State.reset)).run = .faulted ⟨.endOfMemory, 256, 256⟩ ∧
      (after (start (-1) [] State.reset)).run = .faulted ⟨.badAddress, -1, -1⟩ := by decide

/-- V-D8: the missing operand is found before the bad register. -/
theorem test_operand_fetch_comes_before_decoding :
    (after (start 254 [3, 11] State.reset)).run = .faulted ⟨.endOfMemory, 256, 254⟩ := by decide

/-- V-D9. -/
theorem test_bad_register : (after (start 253 [3, 11, 5] State.reset)).run = .faulted ⟨.badRegister, 11, 253⟩ := by decide

/-- V-D10. -/
theorem test_brk : (after (start 7 [1] State.reset)).run = .halted .brk ∧ (after (start 7 [1] State.reset)).pc = 8 := by decide

/-- V-D11, V-D13. -/
theorem test_dbg :
    (after (start 0 [2] State.reset)).run = .suspended .debug ∧
      (afterHost .terminate (after (start 0 [2] State.reset))).run = .halted .debugTerminate := by decide

/-- V-D14, V-D15. -/
theorem test_host_refusals :
    (afterHost .run (after (start 7 [1] State.reset))).replies = [.refused] ∧
      (afterHost (.load 250 [1, 2, 3, 4, 5, 6, 7]) State.reset).replies = [.refused] := by decide

/-! ### Data movement -/

/-- V-M2. -/
theorem test_load : (after (start 0 [3, 7, -5] State.reset)).reg .r7 = -5 := by decide

/-- V-M3: FS stays. -/
theorem test_load_sp :
    (after (start 0 [3, 9, 200] (State.reset.setFs 3))).reg .sp = 200 ∧
      (after (start 0 [3, 9, 200] (State.reset.setFs 3))).fs = 3 := by decide

/-- V-M5. -/
theorem test_mov : (after (start 0 [4, 0, 9] State.reset)).reg .r0 = 128 := by decide

/-- V-M6. -/
theorem test_mov_sp : (after (start 0 [4, 9, 0] (State.reset.setReg .r0 131))).reg .sp = 131 := by decide

/-- V-M11: the value pushed is SP before the push. -/
theorem test_push_sp :
    (after (start 0 [5, 9] State.reset)).cell 128 = 128 ∧ (after (start 0 [5, 9] State.reset)).reg .sp = 129 := by decide

/-- V-M13. -/
theorem test_push_overflow :
    (after (start 0 [5, 0] (State.reset.setReg .sp 256))).run = .faulted ⟨.stackOverflow, 256, 0⟩ := by decide

/-- V-M15: the popped cell keeps its word. -/
theorem test_pop :
    (after (start 0 [6, 4] ((State.reset.setReg .sp 138).setCell 137 9))).reg .r4 = 9 ∧
      (after (start 0 [6, 4] ((State.reset.setReg .sp 138).setCell 137 9))).fs = -1 := by decide

/-- V-M18: POP SP leaves SP at the popped word. -/
theorem test_pop_sp : (after (start 0 [6, 9] ((State.reset.setReg .sp 130).setCell 129 50))).reg .sp = 50 := by decide

/-! ### Arithmetic -/

/-- V-A1. -/
theorem test_add : (after (start 0 [7, 1, 2] ((State.reset.setReg .r1 5).setReg .r2 7))).reg .ac = 12 := by decide

/-- V-A3. -/
theorem test_add_wraps :
    (after (start 0 [7, 0, 1] ((reset32.setReg .r0 2147483647).setReg .r1 1))).reg .ac = -2147483648 := by decide

/-- V-A4. -/
theorem test_addi : (after (start 0 [8, 3, -4] (State.reset.setReg .r3 10))).reg .ac = 6 := by decide

/-- V-A5: first minus second. -/
theorem test_sub : (after (start 0 [9, 1, 2] ((State.reset.setReg .r1 3).setReg .r2 10))).reg .ac = -7 := by decide

/-- V-A7. -/
theorem test_sub_wraps :
    (after (start 0 [9, 0, 1] ((reset32.setReg .r0 (-2147483648)).setReg .r1 1))).reg .ac = 2147483647 := by decide

/-- V-A8: register minus immediate. -/
theorem test_subi : (after (start 0 [10, 0, 5] (State.reset.setReg .r0 1))).reg .ac = -4 := by decide

/-- V-A11. -/
theorem test_mul : (after (start 0 [11, 0, 1] ((State.reset.setReg .r0 (-3)).setReg .r1 (-4)))).reg .ac = 12 := by decide

/-- V-A14. -/
theorem test_mul_wraps : (after (start 0 [11, 0, 0] (reset32.setReg .r0 46341))).reg .ac = -2147479015 := by decide

/-- V-A15. -/
theorem test_muli : (after (start 0 [12, 2, 7] (State.reset.setReg .r2 6))).reg .ac = 42 := by decide

/-- V-A16. -/
theorem test_muli_wraps : (after (start 0 [12, 0, -1] (reset32.setReg .r0 (-2147483648)))).reg .ac = -2147483648 := by decide

/-- V-A18. -/
theorem test_inc_wraps : (after (start 0 [13, 0] (reset32.setReg .r0 2147483647))).reg .r0 = -2147483648 := by decide

/-- V-A21: FS stays. -/
theorem test_inc_sp :
    (after (start 0 [13, 9] State.reset)).reg .sp = 129 ∧ (after (start 0 [13, 9] State.reset)).fs = 0 := by decide

/-- V-A19. -/
theorem test_dec : (after (start 0 [14, 5] State.reset)).reg .r5 = -1 := by decide

/-- V-A20. -/
theorem test_dec_wraps : (after (start 0 [14, 0] (reset32.setReg .r0 (-2147483648)))).reg .r0 = 2147483647 := by decide

/-! ### Comparison and flags -/

/-- V-C2: EF is sticky. -/
theorem test_cmp_is_sticky :
    (after (start 0 [15, 0, 1] ((({ State.reset with ef := true } : State).setReg .r0 7).setReg .r1 9))).ef = true := by decide

/-- V-C3, V-C4: the source decides ZF, the destination does not. -/
theorem test_cmp_zf :
    (after (start 0 [15, 1, 0] (State.reset.setReg .r1 5))).zf = true ∧
      (after (start 0 [15, 0, 1] (State.reset.setReg .r1 5))).zf = false := by decide

/-- V-C7. -/
theorem test_clf :
    (after (start 0 [16] { State.reset with ef := true, zf := true })).ef = false ∧
      (after (start 0 [16] { State.reset with ef := true, zf := true })).zf = false := by decide

/-! ### Control transfer -/

/-- V-J2: the target is not checked. -/
theorem test_jmp : (after (start 5 [17, 300] State.reset)).pc = 300 := by decide

/-- V-J4, V-J5. -/
theorem test_jz :
    (after (start 10 [18, 30] { State.reset with zf := true })).pc = 30 ∧ (after (start 10 [18, 30] State.reset)).pc = 12 := by
  decide

/-- V-J6, V-J7. -/
theorem test_jnz :
    (after (start 17 [19, 6] State.reset)).pc = 6 ∧ (after (start 17 [19, 6] { State.reset with zf := true })).pc = 19 := by
  decide

/-- V-J8, V-J9. -/
theorem test_je :
    (after (start 15 [20, 20] { State.reset with ef := true })).pc = 20 ∧ (after (start 15 [20, 20] State.reset)).pc = 17 := by
  decide

/-- V-J10, V-J11. -/
theorem test_jne :
    (after (start 17 [21, 6] State.reset)).pc = 6 ∧ (after (start 17 [21, 6] { State.reset with ef := true })).pc = 19 := by
  decide

/-- V-J12. -/
theorem test_call :
    (List.range 10).map (fun k : Nat => (after (start 5 [22, 8] (State.reset.setReg .r1 3))).cell (128 + (k : Int))) =
        [0, 3, 0, 0, 0, 0, 0, 0, 7, 9] ∧
      (after (start 5 [22, 8] (State.reset.setReg .r1 3))).reg .fp = 138 := by decide

/-- V-J14: nothing is written. -/
theorem test_call_overflow :
    (after (start 5 [22, 8] (State.reset.setReg .sp 247))).run = .faulted ⟨.stackOverflow, 256, 5⟩ ∧
      (after (start 5 [22, 8] (State.reset.setReg .sp 247))).mem = (start 5 [22, 8] State.reset).mem := by decide

/-- The start of V-J18. -/
def retStart : State :=
  start 10 [23] { State.reset with
    x := ⟨0, 0, 0, 0, 0, 0, 0, 0, 0, 141, 141⟩, cd := 1, mem := [(128, 10), (129, 20), (130, 2), (139, 17), (140, 12)] }

/-- V-J18. -/
theorem test_ret :
    (after retStart).reg .fp = 128 ∧ (after retStart).reg .sp = 128 ∧ (after retStart).fs = 0 ∧ (after retStart).pc = 17 := by
  decide

/-- V-J15, V-J17. -/
theorem test_ret_faults :
    (after (start 0 [23] State.reset)).run = .faulted ⟨.unbalancedReturn, 0, 0⟩ ∧
      (after (start 10 [23] { State.reset with
        x := ⟨0, 0, 0, 0, 0, 0, 0, 0, 0, 138, 138⟩, cd := 1, mem := [(127, -2), (136, 7), (137, 9)] })).run =
        .faulted ⟨.badArgCount, -2, 10⟩ := by decide

/-! ### Interrupts -/

/-- V-I1, V-I4. -/
theorem test_put_char :
    (after (start 0 [24, 0] ((State.reset.setReg .sp 130).setCell 130 72))).out = [72] ∧
      (after (start 0 [24, 0] (State.reset.setCell 128 (-5)))).run = .faulted ⟨.badCharacter, -5, 0⟩ := by decide

/-- V-I6, V-I9. -/
theorem test_put_string :
    (after (start 0 [24, 1] ((State.reset.setCell 128 104).setCell 129 105))).out = [104, 105, 10] ∧
      (after (start 0 [24, 1] ((State.reset.setCell 128 104).setCell 129 (-1)))).out = [] := by decide

/-- V-I11, V-I14. -/
theorem test_read_line :
    (afterHost (.deliverLine [104, 105]) (after (start 3 [24, 2] State.reset))).reg .sp = 131 ∧
      (afterHost (.deliverLine [104, 105]) (after (start 3 [24, 2] (State.reset.setReg .sp 254)))).run =
        .faulted ⟨.badAddress, 256, 3⟩ := by decide

/-! ### The assembler (30_encoding.md R57, R58) -/

/-- A label, a comment, a pseudo-instruction, several statements on a line. -/
theorem test_assemble :
    Assembler.assemble 0 "top: INC R0 ;; count\nCMP R0, R1; JNE top\nHALT".toList =
      .ok [13, 0, 15, 0, 1, 21, 0, 1] := by decide

/-- Each refusal R57 names. -/
theorem test_assemble_refuses :
    Assembler.assemble 0 "NOP".toList = .error (.unknownMnemonic "NOP".toList) ∧
      Assembler.assemble 0 "INC R8".toList = .error (.notARegister "R8".toList) ∧
      Assembler.assemble 0 "INC".toList = .error (.wrongOperandCount "INC".toList) ∧
      Assembler.assemble 0 "JMP x".toList = .error (.undefinedLabel "x".toList) := by decide

/-! ### Witnesses: the hypotheses of each obligation, met, clause by clause at boundary values -/

/-- The reset state about to run `ws` at `a` with SP at `sp`. -/
def withSp (sp a : Int) (ws : List Int) : State := (start a ws State.reset).setReg .sp sp

theorem test_witness_DecodeAcceptsOnlyEncodings : decode [3, 10, 7, 9] = .ok (.load .fp 7, [9]) := rfl

theorem test_witness_EveryOtherOpcodeIsInvalid :
    ((0 : Int) < 1 ∨ (24 : Int) < 0) ∧ ((25 : Int) < 1 ∨ (24 : Int) < 25) ∧
      (start 0 [0] State.reset).run = .running ∧ (start 0 [0] State.reset).isAddress 0 ∧
      (start 0 [0] State.reset).cell 0 < 1 ∧ 24 < (start 255 [25] State.reset).cell 255 := by decide

theorem test_witness_RegisterOperandsAreZeroToTen :
    ((-1 : Int) < 0 ∨ (10 : Int) < -1) ∧ ((11 : Int) < 0 ∨ (10 : Int) < 11) ∧ Reg.toWord .r0 = 0 ∧ Reg.toWord .fp = 10 := by
  decide

theorem test_witness_WellFormedMeansEveryWordIsInTheDomain : small.wf = true ∧ Config.reference.wf = true := by decide

/-- The last words of memory. -/
theorem test_witness_StepRunsTheDecodedInstruction :
    (start 253 [3, 1, 2] State.reset).run = .running ∧ (start 253 [3, 1, 2] State.reset).codeAt (.load .r1 2) :=
  ⟨rfl, by decide, by decide, by decide⟩

theorem test_witness_FetchOutsideMemoryFaults :
    (start 256 [] State.reset).run = .running ∧ ((256 : Nat) : Int) ≤ (start 256 [] State.reset).pc ∧
      (start (-1) [] State.reset).pc < 0 ∧
      opcodeForm ((start 255 [5] State.reset).cell 255) = some (.f1r .push) ∧
      ((start 255 [5] State.reset).cfg.memSize : Int) ≤ 255 + (Form.format (.f1r .push)).arity :=
  ⟨rfl, by decide, by decide, rfl, by decide⟩

theorem test_witness_UndecodableOperandsFault :
    (start 253 [4, 11, 0] State.reset).run = .running ∧ opcodeForm ((start 253 [4, 11, 0] State.reset).cell 253) = some (.f2rr .mov) ∧
      10 < (start 253 [4, 11, 0] State.reset).cell 254 ∧ (start 253 [4, 10, -1] State.reset).cell 254 ≤ 10 ∧
      (start 253 [4, 10, -1] State.reset).cell 255 < 0 ∧
      opcodeForm ((start 254 [24, 3] State.reset).cell 254) = some (.f1c .int) ∧ 2 < (start 254 [24, 3] State.reset).cell 255 :=
  ⟨rfl, rfl, by decide, by decide, by decide, rfl, by decide⟩

theorem test_witness_StepKeepsTheMachineConsistent :
    (start 0 [13, 1] (State.construct small)).Consistent ∧
      step (start 0 [13, 1] (State.construct small)) = .next (after (start 0 [13, 1] (State.construct small))) :=
  ⟨⟨by decide, by decide, by decide, fun r => by cases r <;> decide, by decide, by decide, rfl, by decide, trivial⟩, rfl⟩

theorem test_witness_ConstructedMachineIsConsistent : small.wf = true := by decide

theorem test_witness_EndedRunIsFrozen :
    (after (start 0 [1] State.reset)).ended = true ∧ (after (start 0 [0] State.reset)).ended = true ∧
      ({ after (start 0 [0] State.reset) with inbox := [.run] } : State).ended = true := by decide

theorem test_witness_WaitingCoreStaysAsItIs :
    State.reset.waits = true ∧ State.reset.inbox = [] ∧ (after (start 0 [2] State.reset)).waits = true ∧
      (after (start 0 [24, 2] State.reset)).waits = true := by decide

/-- One transition from each run state. -/
theorem test_witness_RunStateFollowsTheTransitionTable :
    (after { State.reset with inbox := [.run] }).run = .running ∧
      (after (start 254 [24, 2] State.reset)).run = .suspended (.input 254) ∧
      (afterHost (.deliverLine []) (after (start 254 [24, 2] State.reset))).run = .running ∧
      (afterHost .resume (after (start 0 [2] State.reset))).run = .running ∧
      (after (after (start 0 [1] State.reset))).run = .halted .brk ∧
      (after (after (start 0 [0] State.reset))).run = .faulted ⟨.invalidOpcode, 0, 0⟩ := by decide

theorem test_witness_OnlyBrkHaltsAndOnlyDbgAndReadLineSuspend :
    (start 0 [] State.reset).run = .running ∧
      exec (.int .readLine) (start 0 [] State.reset) = .next (result (exec (.int .readLine) (start 0 [] State.reset)) State.reset) :=
  ⟨rfl, rfl⟩

theorem test_witness_FaultsAreAllOrNothing :
    (after (start 255 [24] State.reset)).run = .faulted ⟨.endOfMemory, 256, 255⟩ ∧
      (result (exec (.push .r0) (withSp 256 0 [])) State.reset).run = .faulted ⟨.stackOverflow, 256, 0⟩ ∧
      ((hostAct (.deliverLine [65]) (result (exec (.int .readLine) (withSp 255 3 [])) State.reset)).map State.run) =
        some (.faulted ⟨.badAddress, 256, 3⟩) ∧
      (after (start 256 [] State.reset)).run = .faulted ⟨.endOfMemory, 256, 256⟩ := by decide

theorem test_witness_FlagsAreStickyAndWrittenByCmpAndClfOnly :
    exec (.inc .r0) ({ State.reset with ef := true, zf := true } : State) =
      .next (result (exec (.inc .r0) { State.reset with ef := true, zf := true }) State.reset) := rfl

theorem test_witness_MemoryIsWrittenByPushAndCallOnly :
    exec (.pop .r4) (withSp 1 0 []) = .next (result (exec (.pop .r4) (withSp 1 0 [])) State.reset) := rfl

theorem test_witness_HiddenCountersChangeByStackInstructionsOnly :
    (result (exec (.call 8) State.reset) State.reset).cd = 1 ∧ (after retStart).cd = 0 := by decide

theorem test_witness_OutputIsOnlyAppendedTo :
    (after (withSp 128 0 [24, 1])).out = [10] ∧ exec .clf State.reset = .next (result (exec .clf State.reset) State.reset) :=
  ⟨by decide, rfl⟩

theorem test_witness_ParametersNeverChange : step State.reset = .next State.reset := rfl

/-- At both ends of memory. -/
theorem test_witness_PushWritesTheCellAtSp :
    (withSp 0 9 [5, 1]).mem.wf ∧ (withSp 0 9 [5, 1]).isAddress 0 ∧ (withSp 255 9 [5, 1]).isAddress 255 := by decide

theorem test_witness_PopReadsTheCellBelowSp :
    (withSp 1 9 [6, 1]).isAddress ((withSp 1 9 [6, 1]).reg .sp - 1) ∧
      (withSp 256 9 [6, 1]).isAddress ((withSp 256 9 [6, 1]).reg .sp - 1) := by decide

theorem test_witness_PushAndPopTrapOutsideMemory :
    ((withSp 256 0 []).cfg.memSize : Int) ≤ (withSp 256 0 []).reg .sp ∧ (withSp (-1) 0 []).reg .sp < 0 ∧
      ((withSp 257 0 []).cfg.memSize : Int) ≤ (withSp 257 0 []).reg .sp - 1 ∧ (withSp 0 0 []).reg .sp - 1 < 0 := by decide

/-- The narrowest width, and both sides of the wrap of 32 bits. -/
theorem test_witness_WrapIsTheTwosComplementReduction :
    wrap (.bits 1) 1 = -1 ∧ wrap (.bits 32) 2147483648 = -2147483648 ∧ wrap (.bits 32) (-2147483649) = 2147483647 := by decide

theorem test_witness_ArithmeticWritesOnlyTheAccumulator :
    (Instr.muli .ac (-1), State.reset.reg .ac * -1) ∈
      [(Instr.add .ac .sp, State.reset.reg .ac + State.reset.reg .sp), (Instr.addi .ac (-1), State.reset.reg .ac + -1),
        (Instr.sub .ac .sp, State.reset.reg .ac - State.reset.reg .sp), (Instr.subi .ac (-1), State.reset.reg .ac - -1),
        (Instr.mul .ac .sp, State.reset.reg .ac * State.reset.reg .sp), (Instr.muli .ac (-1), State.reset.reg .ac * -1)] := by
  decide

theorem test_witness_IncAndDecUpdateOneRegister :
    (Instr.inc .ac, (1 : Int)) ∈ [(Instr.inc .ac, (1 : Int)), (Instr.dec .ac, (-1 : Int))] ∧
      (Instr.dec .ac, (-1 : Int)) ∈ [(Instr.inc .ac, (1 : Int)), (Instr.dec .ac, (-1 : Int))] := by decide

/-- A frame that fits exactly, at both ends of memory. -/
theorem test_witness_CallSavesTheStateAndJumps :
    (withSp 246 20 []).mem.wf ∧ 0 ≤ (withSp 0 20 []).reg .sp ∧ (withSp 246 20 []).reg .sp + 10 ≤ 256 := by decide

theorem test_witness_CallTrapsWithoutRoom :
    (withSp (-1) 5 []).reg .sp < 0 ∧ (256 : Int) < (withSp 247 5 []).reg .sp + 10 ∧ (256 : Int) < (withSp 257 5 []).reg .sp + 10 := by
  decide

theorem test_witness_RetRestoresTheFrame :
    retStart.cd ≠ 0 ∧ retStart.reg .fp ≤ retStart.cfg.memSize ∧ (2 : Int) = retStart.cell (retStart.reg .fp - 11) ∧
      11 + (2 : Int) ≤ retStart.reg .fp := by decide

/-- FP one past memory, ten words below FP, a negative count, one argument too many; the clauses exclude each other. -/
theorem test_witness_RetTraps :
    State.reset.cd = 0 ∧ (256 : Int) < (retStart.setReg .fp 257).reg .fp ∧ (retStart.setReg .fp 10).reg .fp < 11 ∧
      (retStart.setCell 130 (-1)).cell ((retStart.setCell 130 (-1)).reg .fp - 11) < 0 ∧
      (retStart.setCell 130 131).reg .fp < 11 + (retStart.setCell 130 131).cell ((retStart.setCell 130 131).reg .fp - 11) := by
  decide

/-- A caller that pushed two arguments (cells 243 and 244) and their count onto one word of its own; the frame fits exactly. -/
def callStart : State :=
  start 5 [22, 8] { State.reset with
    x := ⟨1, 2, 3, 4, 5, 6, 7, 8, 9, 246, 242⟩, fs := 4, mem := [(243, 10), (244, 20), (245, 2)] }

theorem test_witness_MatchingRetRestoresTheCaller :
    callStart.cfg.wf = true ∧ callStart.mem.wf ∧ callStart.cfg.inDomain (callStart.reg .fp) ∧ callStart.cfg.inDomain 1 ∧
      callStart.frameInvariant ∧ callStart.fs = 1 + 2 + 1 ∧ callStart.cell (callStart.reg .sp - 1) = 2 ∧
      1 + 2 ≤ callStart.reg .sp ∧ callStart.reg .sp + 10 ≤ callStart.cfg.memSize ∧
      (result (exec (.call 8) callStart) callStart).cd ≠ 0 :=
  ⟨by decide, by decide, by decide, by decide, by unfold State.frameInvariant; decide, by decide, by decide, by decide, by decide,
    by decide⟩

/-- FP is an address; PUSH, POP and CALL complete. RET completes, with the two words unwrapped; and RET faults. -/
theorem test_witness_FrameInvariantIsKept :
    callStart.cfg.wf = true ∧ 0 ≤ callStart.reg .fp ∧ callStart.reg .fp ≤ callStart.cfg.memSize ∧
      callStart.reg .sp = callStart.reg .fp + callStart.fs ∧
      (result (exec (.pop .r1) callStart) callStart).reg .sp = 245 ∧ (result (exec (.push .sp) callStart) callStart).fs = 5 ∧
      (result (exec (.call 8) callStart) callStart).fs = 0 ∧
      retStart.cfg.wf = true ∧ retStart.run = .running ∧ (result (exec .ret retStart) retStart).run = .running ∧
      retStart.cfg.inDomain (retStart.reg .fp - retStart.cell (retStart.reg .fp - 1) - 1) ∧
      retStart.cfg.inDomain (retStart.cell (retStart.reg .fp - 1) - 10 - retStart.cell (retStart.reg .fp - 11)) ∧
      callStart.run = .running ∧ (result (exec .ret callStart) callStart).run ≠ .running := by decide

/-- The last cell, the largest code; and just outside each. -/
theorem test_witness_PutCharEmitsTheCellAtSp :
    (withSp 255 0 []).isAddress 255 ∧ (withSp 255 0 []).isCharacter 1114111 ∧ ¬ (withSp 256 0 []).isAddress 256 ∧
      ¬ ((withSp 0 9 []).setCell 0 1114112).isCharacter (((withSp 0 9 []).setCell 0 1114112).cell 0) := by decide

theorem test_witness_PutStringEmitsTheStringAtSp :
    0 ≤ (withSp 254 0 []).reg .sp ∧ (withSp 254 0 []).reg .sp + (([65] : List Int).length : Nat) < 256 ∧
      ((withSp 254 0 []).setCell 254 65).cell 254 = 65 ∧ ((withSp 254 0 []).setCell 254 65).cell 255 = 0 := by decide

theorem test_witness_PutStringTraps :
    ¬ (withSp (-1) 0 []).isAddress (-1) ∧ (withSp 255 0 []).isAddress 255 ∧
      ((withSp 255 0 []).setCell 255 65).cell 255 = 65 ∧ (255 : Int) + (([65] : List Int).length : Nat) = 256 ∧
      ¬ ((withSp 255 0 []).setCell 255 (-1)).isCharacter (((withSp 255 0 []).setCell 255 (-1)).cell 255) := by decide

/-- A core that waits for a line, SP at `sp`, with `line` to come. -/
def waiting (sp : Int) (line : List Int) : State :=
  { after ((start 3 [24, 2] State.reset).setReg .sp sp) with inbox := [.deliverLine line] }

/-- A line that fits exactly, with the smallest and the largest code. -/
theorem test_witness_DeliveredLineIsStoredAtSp :
    (waiting 253 [1, 1114111]).run = .suspended (.input 3) ∧ (waiting 253 [1, 1114111]).mem.wf ∧
      (∀ c ∈ [(1 : Int), 1114111], 1 ≤ c ∧ c ≤ (waiting 253 []).cfg.charMax ∧ (waiting 253 []).cfg.inDomain c) ∧
      (waiting 253 [1, 1114111]).reg .sp + (([1, 1114111] : List Int).length : Nat) < 256 := by decide

/-- Codes just outside the range; a line one cell too long, and an SP on either side of memory. -/
theorem test_witness_BadLineIsRefusedAndLongLineFaults :
    (waiting 253 [0]).run = .suspended (.input 3) ∧ (waiting 253 [0]).inbox = [.deliverLine [0]] ∧
      (∃ c ∈ [(0 : Int)], c < 1 ∨ ((waiting 253 [0]).cfg.charMax : Int) < c) ∧
      (∃ c ∈ [(1114112 : Int)], c < 1 ∨ ((waiting 253 [1114112]).cfg.charMax : Int) < c) ∧
      (256 : Int) ≤ (waiting 255 [65]).reg .sp + (([65] : List Int).length : Nat) ∧ (waiting (-1) [65]).reg .sp < 0 ∧
      (256 : Int) ≤ (waiting 256 []).reg .sp := by decide

theorem test_witness_HostOperationsNeedTheirRunState :
    (hostAct .run State.reset).isSome ∧ (hostAct (.deliverLine []) (waiting 0 [])).isSome ∧
      (hostAct .resume (after (start 0 [2] State.reset))).isSome ∧ State.reset.run ≠ .running ∧
      (hostAct .terminate State.reset) = none := by decide

/-- An image that fills memory to its end; one word too many; a word outside `V_W`. -/
theorem test_witness_LoadWritesTheImage :
    State.reset.mem.wf ∧ State.reset.run = .ready ∧ (254 : Int) + (([1, 2] : List Int).length : Nat) ≤ 256 ∧
      (∀ w ∈ [(1 : Int), 2], State.reset.cfg.inDomain w) ∧ (256 : Int) < 255 + (([1, 2] : List Int).length : Nat) ∧
      ¬ (State.construct small).cfg.inDomain 128 := by decide

theorem test_witness_RunAndSetEntryStartTheCore :
    (State.construct small).run = .ready ∧ (State.construct small).cfg.inDomain (-128) := by decide

theorem test_witness_BootSequenceStartsTheProgram :
    (98 : Int) + (([1, 2] : List Int).length : Nat) ≤ small.memSize ∧ (∀ w ∈ [(1 : Int), 2], small.inDomain w) ∧
      small.inDomain 127 := by decide

theorem test_witness_HostReadsAnyCellRange :
    (254 : Int) + (2 : Nat) ≤ State.reset.cfg.memSize ∧ (State.reset.cfg.memSize : Int) < 255 + (2 : Nat) ∧
      hostRead (.cells 254 2) State.reset = some (.words [0, 0]) ∧ hostRead (.cells (-1) 2) State.reset = none := by decide

theorem test_witness_DebugSurfaceNamesTheInstruction :
    (start 254 [24, 2] State.reset).codeAt (.int .readLine) ∧ hostMnemonic (start 254 [24, 2] State.reset) = some "INT" :=
  ⟨⟨by decide, by decide, by decide⟩, by decide⟩

/-- `top: JNE top;INC FP` at 6. -/
theorem test_witness_AssembledItemsAreWholeInstructions :
    ([("top".toList, (6 : Int))].map Prod.fst).Nodup ∧
      Assembler.labelAddresses 6 [] (Assembler.items "top: JNE top;INC FP".toList) = .ok [("top".toList, 6)] ∧
      Assembler.assemble 6 "top: JNE top;INC FP".toList = .ok [21, 6, 13, 10] := by decide

/-- `INC R0; top: BRK` at 5: the label stands for 7. -/
theorem test_witness_LabelsStandForTheAddressOfTheirInstruction :
    Assembler.labelAddresses 5 [] [.instruction "INC".toList ["R0".toList], .label "top".toList, .instruction "BRK".toList []] =
        .ok [("top".toList, 7)] ∧
      Assembler.itemWords [] [.instruction "INC".toList ["R0".toList]] = .ok [13, 0] ∧
      ([("top".toList, (7 : Int))].map Prod.fst).Nodup ∧ Assembler.integerValue "top".toList = none := by decide

/-- The last row of the map; the words on either side of it. -/
theorem test_witness_OpcodeMapIsTheTableOfTheSpec :
    (start 254 [24, 2] State.reset).codeAt (.int .readLine) ∧ (∀ row ∈ opcodeMap, row.opcode ≠ 0) ∧
      ∀ row ∈ opcodeMap, row.opcode ≠ 25 :=
  ⟨⟨by decide, by decide, by decide⟩, by decide, by decide⟩

/-- Both signs and none; the numbers next to zero. -/
theorem test_witness_NumbersAreSignedDecimals :
    Assembler.integerValue "-1".toList = some (-1) ∧ Assembler.integerValue "+010".toList = some 10 ∧
      Assembler.integerValue "0".toList = some 0 ∧ Assembler.integerValue "-".toList = none := by decide

/-- Two lines, both separators, an empty comment and one with a `;`. -/
theorem test_witness_ProgramTextAssemblesToItsEncodings :
    '\n' ∉ " one; two".toList ∧
      Assembler.programText
        [([(true, .load .r1 (-7)), (false, .cmp .ac .r1)], " one; two".toList), ([(true, .brk)], [])] =
          "LOAD R1, -7;CMP AC R1;; one; two\nBRK;;".toList := by decide

/-- The stack window in the middle and at both ends of memory; FP at the lowest place for a frame, and at the end of memory. -/
theorem test_witness_DebugViewsShowStackAndFrame :
    hostStackWindow 1 2 ((withSp 128 0 []).placeWords 127 [1, 2, 3, 4]) = some (.words [1, 2, 3, 4]) ∧
      hostStackWindow 3 1 ((withSp 1 0 []).placeWords 0 [5, 6, 7]) = some (.words [5, 6, 7]) ∧
      hostStackWindow 1 2 ((withSp 256 0 []).placeWords 255 [8]) = some (.words [8]) ∧
      10 ≤ (State.reset.setReg .fp 10).reg .fp ∧ (State.reset.setReg .fp 256).reg .fp ≤ State.reset.cfg.memSize := by decide

end Sys2Proof.Tests
end

/-! ## The value domain and `wrap` (spec 00_scope.md R6, R8, R9) -/

namespace Sys2Proof.Machine

/-- With the parameters of R6 every distance between two places in `[0, N]` is a word. -/
theorem inDomain_of_natAbs_le {c : Config} (hc : c.wf = true) {v : Int} (h : v.natAbs ≤ c.memSize) : c.inDomain v := by
  unfold Config.inDomain
  cases hW : c.wordBits with
  | unbounded => rfl
  | bits w =>
    simp [Config.wf, hW] at hc
    rw [contains_bits_iff]
    omega

/-- With the parameters of R6 a word has at least 8 bits, so the numbers `0` to `127` are words. -/
theorem inDomain_of_byte {c : Config} (hc : c.wf = true) {v : Int} (h0 : 0 ≤ v) (h1 : v ≤ 127) : c.inDomain v := by
  unfold Config.inDomain
  cases hW : c.wordBits with
  | unbounded => rfl
  | bits w =>
    simp [Config.wf, hW] at hc
    have hpow : (2 : Int) ^ 7 ≤ 2 ^ (w - 1) := pow_le_pow_right₀ (by norm_num) (by omega)
    rw [contains_bits_iff]
    omega

/-- With the parameters of R6 the ASCII codes, the newline among them, are character codes. -/
theorem charMax_of_wf {c : Config} (hc : c.wf = true) : 127 ≤ c.charMax := by
  simp only [Config.wf, Bool.and_eq_true, decide_eq_true_eq] at hc
  exact hc.1.2

/-- With the parameters of R6 the reset value of SP and FP is at most `N`. -/
theorem stackBase_le_of_wf {c : Config} (hc : c.wf = true) : c.stackBase ≤ c.memSize := by
  simp only [Config.wf, Bool.and_eq_true, decide_eq_true_eq] at hc
  exact hc.1.1.2

/-- A word of a machine within R6 is its own wrap. -/
theorem wrap_of_inDomain {c : Config} (hc : c.wf = true) {v : Int} (h : c.inDomain v) : wrap c.wordBits v = v :=
  wrap_of_contains (wordBits_ne_zero_of_wf hc) h

/-- Two wrapped terms can be wrapped together with their sum. -/
theorem wrap_wrap_add_wrap (W : WordBits) (a b : Int) : wrap W (wrap W a + wrap W b) = wrap W (a + b) := by
  rw [wrap_wrap_add, add_comm, wrap_wrap_add, add_comm]

/-- `wrap` forgets a multiple of `2^W`. -/
theorem wrap_add_mul_two_pow (w : Nat) (z k : Int) : wrap (.bits w) (z + k * 2 ^ w) = wrap (.bits w) z := by
  simp only [wrap]
  rw [show z + k * 2 ^ w + 2 ^ (w - 1) = z + 2 ^ (w - 1) + k * 2 ^ w by ring, Int.add_mul_emod_self_right]

/-- `wrap` adds a multiple of `2^W`. -/
theorem wrap_eq_add_mul_two_pow (w : Nat) (z : Int) : ∃ k : Int, wrap (.bits w) z = z + k * 2 ^ w := by
  obtain ⟨k, hk⟩ := Int.ModEq.dvd (wrap_bits_emod w z).symm
  exact ⟨k, by linarith⟩

/-- Settles O30: the wrapped integer is such a word, and any other such word has the same wrap, which is itself. -/
theorem wrapIsTheTwosComplementReduction : Obligations.WrapIsTheTwosComplementReduction := by
  refine ⟨wrap_unbounded, fun w z v hw => ⟨?_, ?_⟩⟩
  · rintro rfl
    exact ⟨(contains_bits_iff w _).1 (contains_wrap _ z), wrap_eq_add_mul_two_pow w z⟩
  · rintro ⟨hv, k, rfl⟩
    have hW : WordBits.bits w ≠ .bits 0 := fun h => by injection h; omega
    rw [← wrap_of_contains hW ((contains_bits_iff w _).2 hv), wrap_add_mul_two_pow]

/-! ## The words of an instruction (spec 30_encoding.md R46 to R52) -/

/-- An opcode word is one of the 24 of the opcode map (R52). -/
theorem opcode_range (i : Instr) : 1 ≤ i.opcode ∧ i.opcode ≤ 24 := by cases i <;> simp [Instr.opcode]

theorem opcode_inDomain {c : Config} (hc : c.wf = true) (i : Instr) : c.inDomain i.opcode := by
  obtain ⟨h1, h24⟩ := opcode_range i
  exact inDomain_of_byte hc (by omega) (by omega)

theorem toWord_inDomain {c : Config} (hc : c.wf = true) (r : Reg) : c.inDomain r.toWord := by
  refine inDomain_of_byte hc ?_ ?_ <;> cases r <;> decide

theorem intCode_inDomain {c : Config} (hc : c.wf = true) (k : IntCode) : c.inDomain k.toWord := by
  refine inDomain_of_byte hc ?_ ?_ <;> cases k <;> decide

/-- Settles O6: of an instruction's words only an immediate or a target can lie outside `V_W`. -/
theorem wellFormedMeansEveryWordIsInTheDomain : Obligations.WellFormedMeansEveryWordIsInTheDomain := by
  intro c i hc
  have hop := opcode_inDomain hc i
  have hreg := toWord_inDomain hc
  have hint := intCode_inDomain hc
  rw [encode, List.forall_mem_cons, and_iff_right hop]
  cases i <;> simp [wellFormed, Instr.operandWords, Config.inDomain, hreg, hint]

end Sys2Proof.Machine

/-! ## PUSH, POP and the arithmetic instructions (spec 41_stack_frame.md R71, R72; 42, 43) -/

namespace Sys2Proof.Machine

/-- PUSH with SP inside memory is a run of one push, with `pc` after the instruction. -/
theorem exec_push_ok {s : State} (r : Reg) (hm : s.mem.wf) (hsp : s.isAddress (s.reg .sp)) :
    ∃ t, exec (.push r) s = .next t ∧ Pushed (s.advance 2) t [s.reg r] := by
  have hpush := push_ok (s := s.advance 2) (v := s.reg r) hsp.1 hsp.2
  refine ⟨_, ?_, pushed_one (s := s.advance 2) (v := s.reg r) hm hsp.1⟩
  show commit s ((s.advance 2).push (s.reg r)) = _
  rw [hpush, commit]

/-- Settles O27, from the law of one push. -/
theorem pushWritesTheCellAtSp : Obligations.PushWritesTheCellAtSp := by
  intro s r hm hsp
  obtain ⟨t, hexec, hP⟩ := exec_push_ok r hm hsp
  have hcell : t.cell (s.reg .sp) = s.reg r := by simpa using hP.cells 0 (by simp)
  refine ⟨t, hexec, hcell, fun a ha hne => ?_, by simpa using hP.sp, hP.regs, hP.fs (by simp), hP.frame⟩
  refine hP.others a ha.1 ?_
  simp only [List.length_singleton, State.reg_advance]
  omega

/-- POP with a cell of memory below SP: the pop, and then the write of the popped word. -/
theorem exec_pop_ok {s : State} (r : Reg) (h : s.isAddress (s.reg .sp - 1)) :
    exec (.pop r) s = .next ((((s.advance 2).setReg .sp (s.reg .sp - 1)).setFs (s.wrap (s.fs - 1))).setReg r
      (s.cell (s.reg .sp - 1))) := by
  obtain ⟨h0, h1⟩ := h
  have hpop := pop_ok (s := s.advance 2) (by simp; omega) (by simp; omega)
  show commit s _ = _
  rw [hpop]
  rfl

/-- Settles O28: the write of the popped word comes last, so it is what SP holds after POP SP. -/
theorem popReadsTheCellBelowSp : Obligations.PopReadsTheCellBelowSp := by
  intro s r h
  refine ⟨_, exec_pop_ok r h, by simp, fun hr => ?_, fun p hp hpr => ?_, rfl, fun _ => rfl, rfl⟩
  · rw [State.reg_setReg_other _ _ (Ne.symm hr)]; simp
  · rw [State.reg_setReg_other _ _ hpr]; simp [State.reg_setReg_other _ _ hp]

/-- Writing one register after the fetches of an instruction: that register, and the frame. -/
theorem setReg_advance_spec (s : State) (n : Nat) (r : Reg) (v : Int) :
    ((s.advance n).setReg r v).reg r = v ∧ (∀ p, p ≠ r → ((s.advance n).setReg r v).reg p = s.reg p) ∧
      (s.advance n).setReg r v = { s with pc := s.pc + n, x := ((s.advance n).setReg r v).x } ∧
      ∀ a : Int, ((s.advance n).setReg r v).cell a = s.cell a :=
  ⟨by simp, fun p hp => by simp [State.reg_setReg_other _ _ hp], rfl, fun _ => rfl⟩

/-- Settles O31: each of the six instructions writes one register, AC. -/
theorem arithmeticWritesOnlyTheAccumulator : Obligations.ArithmeticWritesOnlyTheAccumulator := by
  intro s ra rb imm i z h
  have hexec : exec i s = .next (s.accumulate 3 z) := by
    simp only [List.mem_cons, Prod.mk.injEq, List.not_mem_nil, or_false] at h
    rcases h with ⟨rfl, rfl⟩ | ⟨rfl, rfl⟩ | ⟨rfl, rfl⟩ | ⟨rfl, rfl⟩ | ⟨rfl, rfl⟩ | ⟨rfl, rfl⟩ <;> rfl
  exact ⟨_, hexec, setReg_advance_spec s 3 .ac (s.wrap z)⟩

/-- Settles O32: INC and DEC write one register, the one they name. -/
theorem incAndDecUpdateOneRegister : Obligations.IncAndDecUpdateOneRegister := by
  intro s r i d h
  have hexec : exec i s = .next (s.stepReg r d) := by
    simp only [List.mem_cons, Prod.mk.injEq, List.not_mem_nil, or_false] at h
    rcases h with ⟨rfl, rfl⟩ | ⟨rfl, rfl⟩ <;> rfl
  exact ⟨_, hexec, setReg_advance_spec s 2 r (s.wrap (s.reg r + d))⟩

/-! ## What a step can do, and the parameters (spec 00_scope.md R6, 40_dispatch.md R63, R66, R70) -/

/-- Every next state of a step: that of the fetched instruction, that of a fault of its fetch or decoding, or, in every run state
but Running, that of the host's turn. -/
theorem step_cases {s t : State} (h : step s = .next t) :
    (∃ i, s.run = .running ∧ s.fetchInstr = .ok i ∧ exec i s = .next t) ∨
    (∃ e, s.run = .running ∧ s.fetchInstr = .error e ∧ t = s.takeFault s.pc e) ∨
    (s.run ≠ .running ∧ t = s.hostTurn) := by
  unfold step at h
  split at h
  · next hrun =>
    split at h
    · next i hi => exact .inl ⟨i, hrun, hi, h⟩
    · next e he => cases h; exact .inr (.inl ⟨e, hrun, he, rfl⟩)
  all_goals
    next hrun => cases h; exact .inr (.inr ⟨by simp [hrun], rfl⟩)

/-- No instruction changes the parameters: where its rule uses the stack, by the frame of that use. -/
theorem exec_cfg {i : Instr} {s t : State} (h : exec i s = .next t) : t.cfg = s.cfg := by
  cases exec_cases h with
  | push r t hp => rw [push_frame hp]; rfl
  | pop r v t hp => rw [State.setReg_cfg, pop_frame hp]; rfl
  | call a t he => rw [State.setCd_cfg, State.setPc_cfg, enter_frame he]; rfl
  | ret t _ hl => rw [State.setCd_cfg, leave_frame hl]; rfl
  | jz | jnz | je | jne => unfold State.jumpIf; split <;> rfl
  | _ => rfl

/-- No boundary operation changes the parameters. -/
theorem hostAct_cfg {op : HostOp} {s t : State} (h : hostAct op s = some t) : t.cfg = s.cfg := by
  cases hostAct_cases h with
  | load a ws t _ _ _ _ hw | seed a ws t _ _ _ _ hw => rw [memWriteList_frame hw]
  | deliverLine fpc line =>
    rcases readLineDeliver_cases s fpc line with ⟨t, -, ht, hframe⟩ | ⟨e, -, ht⟩
    · rw [ht, hframe]
    · rw [ht]; rfl
  | _ => rfl

/-- The host's turn does not change the parameters. -/
theorem hostTurn_cfg (s : State) : s.hostTurn.cfg = s.cfg := by
  rcases hostTurn_cases s with ⟨-, ht⟩ | ⟨op, rest, -, ⟨t, hact, ht⟩ | ⟨-, ht⟩⟩
  · rw [ht]
  · rw [ht, ← hostAct_cfg hact]
  · rw [ht]

/-- Settles O23. -/
theorem parametersNeverChange : Obligations.ParametersNeverChange := by
  intro s t h
  rcases step_cases h with ⟨i, -, -, hexec⟩ | ⟨e, -, -, rfl⟩ | ⟨-, rfl⟩
  · exact exec_cfg hexec
  · rfl
  · exact hostTurn_cfg s

end Sys2Proof.Machine

/-! ## Fetching and decoding (spec 30_encoding.md R51, R52; 40_dispatch.md R62 to R64) -/

namespace Sys2Proof

/-- `op` and the operand words are the encoding of the instruction a form makes of its operands. -/
def Form.EncodesWith (op : Int) : Form → Prop
  | .f0 i => encode i = [op]
  | .f1r mk => ∀ r, encode (mk r) = [op, r.toWord]
  | .f1t mk => ∀ v, encode (mk v) = [op, v]
  | .f1c mk => ∀ k, encode (mk k) = [op, k.toWord]
  | .f2rr mk => ∀ r q, encode (mk r q) = [op, r.toWord, q.toWord]
  | .f2ri mk => ∀ r v, encode (mk r v) = [op, r.toWord, v]

/-- The form of an opcode makes instructions that are encoded with that opcode (R51, R52). -/
theorem opcodeForm_encodesWith {op : Int} {f : Form} (h : opcodeForm op = some f) : f.EncodesWith op := by
  unfold opcodeForm at h
  split at h <;> cases h <;> simp [Form.EncodesWith, encode, Instr.opcode, Instr.operandWords]

/-- What the decoder reads is the encoding of the instruction it answers, followed by the words it leaves. -/
theorem decodeOperands_encode {op : Int} {f : Form} {ws rest : List Int} {i : Instr} (hf : opcodeForm op = some f)
    (h : decodeOperands f ws = .ok (i, rest)) : op :: ws = encode i ++ rest := by
  have henc := opcodeForm_encodesWith hf
  have hinv := decodeOperands_inv h
  cases f with
  | f0 j =>
    obtain ⟨rfl, rfl⟩ := hinv
    rw [henc, List.singleton_append]
  | f1r mk | f1t mk | f1c mk =>
    obtain ⟨x, rfl, rfl⟩ := hinv
    rw [henc x]
    rfl
  | f2rr mk | f2ri mk =>
    obtain ⟨x, y, rfl, rfl⟩ := hinv
    rw [henc x y]
    rfl

/-- The decoder consumes as many operand words as the format has. -/
theorem decodeOperands_length {f : Form} {ws rest : List Int} {i : Instr} (h : decodeOperands f ws = .ok (i, rest)) :
    ws.length = f.format.arity + rest.length := by
  have hinv := decodeOperands_inv h
  cases f with
  | f0 j => obtain ⟨-, rfl⟩ := hinv; simp [Form.format, Format.arity, Format.operands]
  | f1r mk | f1t mk | f1c mk => obtain ⟨x, -, rfl⟩ := hinv; simp [Form.format, Format.arity, Format.operands, add_comm]
  | f2rr mk | f2ri mk => obtain ⟨x, y, -, rfl⟩ := hinv; simp [Form.format, Format.arity, Format.operands]; omega

/-- An encoding has as many words as the instruction (R45). -/
theorem encode_length (i : Instr) : (encode i).length = i.length := by cases i <;> rfl

end Sys2Proof

namespace Sys2Proof.Machine

/-- The information of a decoding fault is a word that was read, or the address after the words read. -/
theorem decodeOperands_error_info {f : Form} {ws : List Int} {e : DecodeError} (next : Int)
    (h : decodeOperands f ws = .error e) :
    (raiseOfDecodeError next e).info = next ∨ (raiseOfDecodeError next e).info ∈ ws := by
  cases f <;> simp only [decodeOperands] at h
  case f0 => cases h
  case f1t => split at h <;> cases h; exact .inl rfl
  case f1r =>
    split at h
    · cases h; exact .inl rfl
    · split at h <;> cases h
      next hr => obtain ⟨rfl, -⟩ := regOfWord_eq_error hr; simp [raiseOfDecodeError]
  case f2ri =>
    split at h
    · cases h; exact .inl rfl
    · cases h; exact .inl rfl
    · split at h <;> cases h
      next hr => obtain ⟨rfl, -⟩ := regOfWord_eq_error hr; simp [raiseOfDecodeError]
  case f1c =>
    split at h
    · cases h; exact .inl rfl
    · split at h <;> cases h
      next hk => obtain ⟨rfl, -⟩ := intCodeOfWord_eq_error hk; simp [raiseOfDecodeError]
  case f2rr =>
    split at h
    · cases h; exact .inl rfl
    · cases h; exact .inl rfl
    · split at h
      · next hr => cases h; obtain ⟨rfl, -⟩ := regOfWord_eq_error hr; simp [raiseOfDecodeError]
      · split at h <;> cases h
        next hq => obtain ⟨rfl, -⟩ := regOfWord_eq_error hq; simp [raiseOfDecodeError]

/-- The words of the `n` cells from `a` on. -/
def State.cellsFrom (s : State) (a : Int) (n : Nat) : List Int := (List.range n).map fun k : Nat => s.cell (a + k)

theorem State.cellsFrom_succ (s : State) (a : Int) (n : Nat) :
    s.cellsFrom a (n + 1) = s.cell a :: s.cellsFrom (a + 1) n := by
  simp only [State.cellsFrom, List.range_succ_eq_map, List.map_cons, List.map_map, Nat.cast_zero, add_zero]
  congr 1
  refine List.map_congr_left fun k _ => ?_
  simp only [Function.comp, Nat.cast_succ]
  congr 1
  ring

@[simp] theorem State.length_cellsFrom (s : State) (a : Int) (n : Nat) : (s.cellsFrom a n).length = n := by
  simp [State.cellsFrom]

/-- Everything the fetch and decoding of an instruction can do, in the order of R64. -/
inductive FetchCase (s : State) : Except Raise Instr → Prop where
  /-- No opcode word can be fetched. -/
  | opcodeOutside : ¬ s.isAddress s.pc → (e : Raise) → e.info = s.pc → FetchCase s (.error e)
  | invalidOpcode : s.isAddress s.pc → opcodeForm (s.cell s.pc) = none →
      FetchCase s (.error ⟨.invalidOpcode, s.cell s.pc⟩)
  /-- An operand word would lie past the end of memory. -/
  | operandOutside (f : Form) : s.isAddress s.pc → opcodeForm (s.cell s.pc) = some f →
      (s.cfg.memSize : Int) < s.pc + 1 + f.format.arity → FetchCase s (.error ⟨.endOfMemory, s.cfg.memSize⟩)
  | undecodable (f : Form) (e : DecodeError) : s.isAddress s.pc → opcodeForm (s.cell s.pc) = some f →
      s.pc + 1 + f.format.arity ≤ s.cfg.memSize →
      decodeOperands f (s.cellsFrom (s.pc + 1) f.format.arity) = .error e →
      FetchCase s (.error (raiseOfDecodeError (s.pc + 1 + f.format.arity) e))
  | decoded (f : Form) (i : Instr) (rest : List Int) : s.isAddress s.pc → opcodeForm (s.cell s.pc) = some f →
      s.pc + 1 + f.format.arity ≤ s.cfg.memSize →
      decodeOperands f (s.cellsFrom (s.pc + 1) f.format.arity) = .ok (i, rest) → FetchCase s (.ok i)

/-- Every answer of `fetchInstr` is one of the cases. -/
theorem fetchInstr_cases (s : State) : FetchCase s s.fetchInstr := by
  rcases lt_or_ge s.pc s.cfg.memSize with hN | hN
  swap
  · simp only [State.fetchInstr, fetch_endOfMemory hN]
    exact .opcodeOutside (fun h => absurd h.2 (not_lt.2 hN)) _ rfl
  rcases lt_or_ge s.pc 0 with h0 | h0
  · simp only [State.fetchInstr, fetch_badAddress h0]
    exact .opcodeOutside (fun h => absurd h.1 (not_le.2 h0)) _ rfl
  have haddr : s.isAddress s.pc := ⟨h0, hN⟩
  simp only [State.fetchInstr, fetch_ok haddr]
  cases hf : opcodeForm (s.cell s.pc) with
  | none => exact .invalidOpcode haddr hf
  | some f =>
    rcases lt_or_ge (s.cfg.memSize : Int) (s.pc + 1 + f.format.arity) with hfit | hfit
    · have hend := fetchMany_endOfMemory (s := s.setPc (s.pc + 1)) f.format.arity (by simp; omega) (by simp; omega)
        (by simpa using hfit)
      simp only [hend]
      exact .operandOutside f haddr hf hfit
    · have hmany : (s.setPc (s.pc + 1)).fetchMany f.format.arity =
          .ok (s.cellsFrom (s.pc + 1) f.format.arity, (s.setPc (s.pc + 1)).setPc (s.pc + 1 + f.format.arity)) :=
        fetchMany_ok f.format.arity (by simp; omega) (by simpa using hfit)
      simp only [hmany]
      cases hd : decodeOperands f (s.cellsFrom (s.pc + 1) f.format.arity) with
      | error e => exact .undecodable f e haddr hf hfit hd
      | ok p => exact .decoded f p.1 p.2 haddr hf hfit hd

/-- A fetched instruction's words stand at `pc`, all of them inside memory. -/
theorem codeAt_of_fetchInstr {s : State} {i : Instr} (h : s.fetchInstr = .ok i) : s.codeAt i := by
  have hcase := fetchInstr_cases s
  rw [h] at hcase
  cases hcase with
  | decoded f _ rest haddr hf hfit hd =>
    have hlen := decodeOperands_length hd
    obtain rfl : rest = [] := List.eq_nil_of_length_eq_zero (by simpa using hlen)
    have hwords := decodeOperands_encode hf hd
    rw [List.append_nil, ← State.cellsFrom_succ] at hwords
    have hi : i.length = f.format.arity + 1 := by rw [← encode_length, ← hwords, State.length_cellsFrom]
    refine ⟨haddr.1, by rw [hi]; push_cast; omega, ?_⟩
    rw [← hwords, hi]
    rfl

end Sys2Proof.Machine

/-! ## States that hold words (spec 00_scope.md R8, 10_state.md R23, R25, R28)

A consistent state is one that holds words of `V_W` and whose run state agrees with `pc` (`State.consistent_iff`). The first half is
kept by every update of a rule's copy of the state, so it is what is carried through a rule. -/

namespace Sys2Proof.Machine

/-- All of `State.Consistent` but what the run state says of `pc`, with the parameters `c` and the run state named. -/
structure State.HoldsWords (c : Config) (run : RunState) (s : State) : Prop where
  cfg : s.cfg = c
  runIs : s.run = run
  memForm : s.mem.wf
  memCells : ∀ p ∈ s.mem, p.1 < c.memSize ∧ c.inDomain p.2
  regs : ∀ r, c.inDomain (s.reg r)
  pc : c.inDomain s.pc
  fs : c.inDomain s.fs
  df : s.df = false
  out : ∀ k ∈ s.out, 0 ≤ k ∧ k ≤ c.charMax

theorem State.consistent_iff {s : State} :
    s.Consistent ↔ s.cfg.wf = true ∧ s.HoldsWords s.cfg s.run ∧ s.runConsistent :=
  ⟨fun h => ⟨h.cfg, ⟨rfl, rfl, h.memForm, h.memCells, h.regs, h.pc, h.fs, h.df, h.out⟩, h.run⟩,
    fun ⟨hc, h, hrun⟩ => ⟨hc, h.memForm, h.memCells, h.regs, h.pc, h.fs, h.df, h.out, hrun⟩⟩

theorem State.HoldsWords.consistent {c : Config} {run : RunState} {s : State} (h : s.HoldsWords c run)
    (hc : c.wf = true) (hrun : s.runConsistent) : s.Consistent := by
  obtain rfl := h.cfg
  obtain rfl := h.runIs
  exact State.consistent_iff.2 ⟨hc, h, hrun⟩

theorem State.HoldsWords.consistent_of_running {c : Config} {s : State} (h : s.HoldsWords c .running)
    (hc : c.wf = true) : s.Consistent :=
  h.consistent hc (by simp [State.runConsistent, h.runIs])

/-! ### What a state that holds words reads -/

/-- A cell that does not read as blank is listed. -/
theorem Memory.read_eq_blank_or_mem (m : Memory) (a : Nat) : m.read a = blankCell ∨ (a, m.read a) ∈ m := by
  induction m with
  | nil => exact .inl rfl
  | cons p m ih =>
    obtain ⟨b, w⟩ := p
    by_cases hab : a = b
    · exact .inr (by simp [Memory.read, hab])
    · simp only [Memory.read, if_neg hab, List.mem_cons]
      exact ih.imp_right .inr

section
variable {c : Config} {run : RunState} {s : State} {v : Int}

theorem State.HoldsWords.cell (h : s.HoldsWords c run) (hc : c.wf = true) (a : Int) : c.inDomain (s.cell a) := by
  rcases Memory.read_eq_blank_or_mem s.mem a.toNat with hz | hmem
  · rw [State.cell, hz]
    exact inDomain_of_byte hc (by decide) (by decide)
  · exact (h.memCells _ hmem).2

theorem State.HoldsWords.wrap (h : s.HoldsWords c run) (z : Int) : c.inDomain (s.wrap z) := by
  obtain rfl := h.cfg
  exact contains_wrap _ z

/-! ### The updates of the state keep it -/

theorem State.HoldsWords.setReg (h : s.HoldsWords c run) (r : Reg) (hv : c.inDomain v) : (s.setReg r v).HoldsWords c run :=
  { h with
    regs := fun q => by
      rw [State.reg_setReg]
      split
      · exact hv
      · exact h.regs q }

theorem State.HoldsWords.setCell (h : s.HoldsWords c run) {a : Int} (h0 : 0 ≤ a) (h1 : a < c.memSize)
    (hv : c.inDomain v) : (s.setCell a v).HoldsWords c run :=
  { h with
    memForm := State.setCell_wf h.memForm a v
    memCells := fun p hp => by
      rcases Memory.mem_write hp with rfl | hp
      · exact ⟨by show a.toNat < c.memSize; omega, hv⟩
      · exact h.memCells p hp }

theorem State.HoldsWords.setPc (h : s.HoldsWords c run) (hv : c.inDomain v) : (s.setPc v).HoldsWords c run := { h with pc := hv }

theorem State.HoldsWords.setFs (h : s.HoldsWords c run) (hv : c.inDomain v) : (s.setFs v).HoldsWords c run := { h with fs := hv }

theorem State.HoldsWords.setCd (h : s.HoldsWords c run) (n : Nat) : (s.setCd n).HoldsWords c run := { h with }

theorem State.HoldsWords.setRun (h : s.HoldsWords c run) (r : RunState) : (s.setRun r).HoldsWords c r := { h with runIs := rfl }

theorem State.HoldsWords.compareFlags (h : s.HoldsWords c run) (d v : Int) : (s.compareFlags d v).HoldsWords c run := { h with }

theorem State.HoldsWords.clearFlags (h : s.HoldsWords c run) : s.clearFlags.HoldsWords c run := { h with df := rfl }

theorem State.HoldsWords.emit (h : s.HoldsWords c run) {cs : List Int} (hcs : ∀ k ∈ cs, 0 ≤ k ∧ k ≤ c.charMax) :
    (s.emit cs).HoldsWords c run :=
  { h with out := fun k hk => (List.mem_append.1 hk).elim (h.out k) (hcs k) }

/-- A fault is taken at a word, with a word as its information. -/
theorem State.HoldsWords.takeFault_consistent (h : s.HoldsWords c run) (hc : c.wf = true) {fpc : Int} (hfpc : c.inDomain fpc)
    {e : Raise} (he : c.inDomain e.info) : (s.takeFault fpc e).Consistent := by
  have hwords : (s.takeFault fpc e).HoldsWords c (.faulted ⟨e.kind, e.info, fpc⟩) := { h with pc := hfpc, runIs := rfl }
  refine hwords.consistent hc ?_
  simp only [State.runConsistent, State.takeFault_run, State.takeFault_pc, hwords.cfg]
  exact ⟨trivial, he⟩

/-- A rule that changes only registers, FS and `pc`, and puts words there, keeps it. -/
theorem State.HoldsWords.of_frame {t : State} (h : s.HoldsWords c run)
    (hframe : t = { s with x := t.x, fs := t.fs, pc := t.pc }) (hregs : ∀ r, c.inDomain (t.reg r))
    (hfs : c.inDomain t.fs) (hpc : c.inDomain t.pc) : t.HoldsWords c run := by
  rw [hframe]
  exact { h with regs := hregs, pc := hpc, fs := hfs }

end

/-! ## Rules that answer words (spec 00_scope.md R10, R11) -/

/-- What `r` answers satisfies `P`, and a fault it raises carries a word, as the record of the fault must (10_state.md R25). -/
def Answers {α : Type} (c : Config) (P : α → Prop) : Except Raise α → Prop
  | .ok a => P a
  | .error e => c.inDomain e.info

/-- The two ways a rule that answers words can end. -/
theorem Answers.cases {α : Type} {c : Config} {P : α → Prop} {r : Except Raise α} (h : Answers c P r) :
    (∃ a, r = .ok a ∧ P a) ∨ ∃ e, r = .error e ∧ c.inDomain e.info := by
  cases r with
  | ok a => exact .inl ⟨a, rfl, h⟩
  | error e => exact .inr ⟨e, rfl, h⟩

section
variable {c : Config} {run : RunState} {s : State} {v : Int}

theorem push_answers (h : s.HoldsWords c run) (hc : c.wf = true) (hv : c.inDomain v) :
    Answers c (State.HoldsWords c run) (s.push v) := by
  rcases lt_or_ge (s.reg .sp) 0 with hlo | hlo
  · rw [push_underflow hlo]
    exact h.regs .sp
  rcases lt_or_ge (s.reg .sp) s.cfg.memSize with hhi | hhi
  · rw [push_ok hlo hhi]
    rw [h.cfg] at hhi
    exact ((h.setCell hlo hhi hv).setReg .sp (inDomain_of_address hc (by omega) (by omega))).setFs (h.wrap _)
  · rw [push_overflow hhi]
    exact h.regs .sp

theorem pop_answers (h : s.HoldsWords c run) (hc : c.wf = true) :
    Answers c (fun p => c.inDomain p.1 ∧ p.2.HoldsWords c run) s.pop := by
  rcases lt_or_ge (s.reg .sp) 1 with hlo | hlo
  · rw [pop_underflow hlo]
    exact h.regs .sp
  rcases lt_or_ge (s.cfg.memSize : Int) (s.reg .sp) with hhi | hhi
  · rw [pop_overflow hhi]
    exact h.regs .sp
  · rw [pop_ok hlo hhi]
    rw [h.cfg] at hhi
    exact ⟨h.cell hc _, (h.setReg .sp (inDomain_of_address hc (by omega) (by omega))).setFs (h.wrap _)⟩

theorem pushAll_answers (hc : c.wf = true) (vs : List Int) (h : s.HoldsWords c run) (hvs : ∀ v ∈ vs, c.inDomain v) :
    Answers c (State.HoldsWords c run) (s.pushAll vs) := by
  induction vs generalizing s with
  | nil => exact h
  | cons v vs ih =>
    obtain ⟨hv, hvs⟩ := List.forall_mem_cons.1 hvs
    rcases (push_answers h hc hv).cases with ⟨t, hp, ht⟩ | ⟨e, hp, he⟩ <;> simp only [State.pushAll, hp]
    · exact ih ht hvs
    · exact he

/-- What `enter()` saves are words: registers, `pc` and a wrapped FS. -/
theorem frameWords_inDomain (h : s.HoldsWords c run) : ∀ v ∈ s.frameWords, c.inDomain v := by
  intro v hv
  simp only [State.frameWords, List.mem_append, List.mem_map, List.mem_cons, List.not_mem_nil, or_false] at hv
  rcases hv with ⟨r, -, rfl⟩ | rfl | rfl
  · exact h.regs r
  · exact h.pc
  · exact h.wrap _

theorem enter_answers (h : s.HoldsWords c run) (hc : c.wf = true) : Answers c (State.HoldsWords c run) s.enter := by
  rcases (pushAll_answers hc s.frameWords h (frameWords_inDomain h)).cases with ⟨u, hp, hu⟩ | ⟨e, hp, he⟩ <;>
    simp only [enter_eq, hp]
  · exact (hu.setReg .fp (hu.regs .sp)).setFs (inDomain_of_byte hc (by decide) (by decide))
  · exact he

/-- Everything that decides how `leave()` ends, the last of the cases being the one in which it completes. -/
theorem leave_cases (s : State) :
    ((s.cfg.memSize : Int) < s.reg .fp ∧ s.leave = .error ⟨.stackOverflow, s.reg .fp⟩) ∨
    (s.reg .fp ≤ s.cfg.memSize ∧ s.leave = .error ⟨.stackUnderflow, min (s.reg .fp) 0⟩) ∨
    s.leave = .error ⟨.badArgCount, s.savedCount⟩ ∨
    (0 ≤ s.savedCount ∧ 11 + s.savedCount ≤ s.reg .fp ∧ s.reg .fp ≤ s.cfg.memSize) := by
  rcases lt_or_ge (s.cfg.memSize : Int) (s.reg .fp) with hover | hfit
  · exact .inl ⟨hover, leave_overflow hover⟩
  rcases lt_or_ge (s.reg .fp) 11 with hfew | hframe
  · exact .inr (.inl ⟨hfit, leave_underflow hfit (.inl hfew)⟩)
  rcases lt_or_ge s.savedCount 0 with hneg | hcount
  · exact .inr (.inr (.inl (leave_badArgCount hframe hfit hneg)))
  rcases lt_or_ge (s.reg .fp) (11 + s.savedCount) with hmany | hargs
  · exact .inr (.inl ⟨hfit, leave_underflow hfit (.inr ⟨hcount, hmany⟩)⟩)
  · exact .inr (.inr (.inr ⟨hcount, hargs, hfit⟩))

theorem leave_answers (h : s.HoldsWords c run) (hc : c.wf = true) : Answers c (State.HoldsWords c run) s.leave := by
  rcases leave_cases s with ⟨-, he⟩ | ⟨-, he⟩ | he | ⟨hcount, hargs, hfit⟩
  · rw [he]; exact h.regs .fp
  · rw [he]
    show c.inDomain (min (s.reg .fp) 0)
    rcases min_choice (s.reg .fp) 0 with hmin | hmin <;> rw [hmin]
    · exact h.regs .fp
    · exact inDomain_of_byte hc (by decide) (by decide)
  · rw [he]; exact h.cell hc _
  · obtain ⟨t, hok, hsp, hfp, hac, hfs, hgprs, hpc, hframe⟩ := leave_ok hcount hargs hfit
    rw [h.cfg] at hfit
    rw [hok]
    refine h.of_frame hframe (fun r => ?_) (hfs ▸ h.wrap _) (hpc ▸ h.cell hc _)
    have hr : r = .sp ∨ r = .fp ∨ r = .ac ∨ r ∈ gprs := by cases r <;> decide
    rcases hr with rfl | rfl | rfl | hr
    · rw [hsp]; exact inDomain_of_address hc (by omega) (by omega)
    · rw [hfp]; exact h.wrap _
    · rw [hac]; exact h.regs .ac
    · obtain ⟨k, hk, rfl⟩ := List.getElem_of_mem hr
      rw [hgprs k hk]; exact h.cell hc _

/-- Writing words to cells inside memory raises nothing. -/
theorem memWriteList_answers (vs : List Int) (h : s.HoldsWords c run) (hvs : ∀ v ∈ vs, c.inDomain v) {a : Int}
    (h0 : 0 ≤ a) (h1 : a + vs.length ≤ c.memSize) : Answers c (State.HoldsWords c run) (s.memWriteList a vs) := by
  induction vs generalizing s a with
  | nil => exact h
  | cons v vs ih =>
    obtain ⟨hv, hvs⟩ := List.forall_mem_cons.1 hvs
    simp only [List.length_cons, Nat.cast_add, Nat.cast_one] at h1
    have hw : s.memWrite a v = .ok (s.setCell a v) := by rw [State.memWrite, if_pos ⟨h0, by rw [h.cfg]; omega⟩]
    simp only [State.memWriteList, hw]
    exact ih (h.setCell h0 (by omega) hv) hvs (by omega) (by omega)

theorem memRead_answers (h : s.HoldsWords c run) (hc : c.wf = true) {a : Int} (ha : c.inDomain a) :
    Answers c c.inDomain (s.memRead a) := by
  unfold State.memRead
  split
  · exact h.cell hc a
  · exact ha

theorem putChar_answers (h : s.HoldsWords c run) (hc : c.wf = true) : Answers c (State.HoldsWords c run) s.putChar := by
  rcases (memRead_answers h hc (h.regs .sp)).cases with ⟨v, hr, hv⟩ | ⟨e, hr, he⟩ <;> simp only [State.putChar, hr]
  · split
    · next hchar =>
      rw [State.isCharacter, h.cfg] at hchar
      exact h.emit (by simpa using hchar)
    · exact hv
  · exact he

/-- The scan of a string that starts at a word, with `fuel` cells to the end of memory, raises a word: the address where it
stands, at the latest `N`, or the cell it reads there. -/
theorem scanString_answers (h : s.HoldsWords c run) (hc : c.wf = true) (fuel : Nat) {a : Int} (ha : c.inDomain a)
    (hfuel : fuel ≠ 0 → a + fuel ≤ c.memSize) :
    Answers c (fun cs : List Int => ∀ k ∈ cs, 0 ≤ k ∧ k ≤ c.charMax) (s.scanString fuel a) := by
  induction fuel generalizing a with
  | zero => exact ha
  | succ fuel ih =>
    have hle : a + (fuel + 1) ≤ c.memSize := by simpa using hfuel
    by_cases haddr : s.isAddress a
    · have hread : s.memRead a = .ok (s.cell a) := by rw [State.memRead, if_pos haddr]
      obtain ⟨h0, -⟩ := haddr
      have hrec := ih (a := a + 1) (inDomain_of_address hc (by omega) (by omega)) (fun _ => by omega)
      simp only [State.scanString, hread]
      split
      · simp [Answers]
      split
      · next hchar =>
        rw [State.isCharacter, h.cfg] at hchar
        rcases hrec.cases with ⟨cs, hs, hcs⟩ | ⟨e, hs, he⟩ <;> simp only [hs]
        · exact List.forall_mem_cons.2 ⟨hchar, hcs⟩
        · exact he
      · exact h.cell hc a
    · simp only [State.scanString, State.memRead, if_neg haddr]
      exact ha

theorem putString_answers (h : s.HoldsWords c run) (hc : c.wf = true) : Answers c (State.HoldsWords c run) s.putString := by
  have hscan := scanString_answers h hc ((s.cfg.memSize : Int) - s.reg .sp).toNat (h.regs .sp)
    (by rw [h.cfg]; omega)
  rcases hscan.cases with ⟨cs, hs, hcs⟩ | ⟨e, hs, he⟩ <;> simp only [State.putString, hs]
  · refine h.emit fun k hk => ?_
    rcases List.mem_append.1 hk with hk | hk
    · exact hcs k hk
    · have hmax := charMax_of_wf hc
      obtain rfl : k = 10 := by simpa [newline] using hk
      omega
  · exact he

theorem readLineStore_answers (h : s.HoldsWords c run) (hc : c.wf = true) {line : List Int}
    (hline : ∀ v ∈ line, c.inDomain v) : Answers c (State.HoldsWords c .running) (s.readLineStore line) := by
  unfold State.readLineStore
  simp only [h.cfg]
  split
  · exact h.regs .sp
  · next h0 =>
    split
    · show c.inDomain (max (s.reg .sp) c.memSize)
      rcases max_choice (s.reg .sp) c.memSize with hmax | hmax <;> rw [hmax]
      · exact h.regs .sp
      · exact inDomain_of_address hc (by omega) (by omega)
    · next h1 =>
      have hzero : c.inDomain 0 := inDomain_of_byte hc (by decide) (by decide)
      have hwrite := memWriteList_answers (line ++ [0]) h
        (List.forall_mem_append.2 ⟨hline, by simpa using hzero⟩) (a := s.reg .sp) (by omega) (by simp; omega)
      rcases hwrite.cases with ⟨t, hw, ht⟩ | ⟨e, hw, he⟩ <;> simp only [hw]
      · exact (ht.setReg .sp (inDomain_of_address hc (by omega) (by omega))).setRun .running
      · exact he

end
end Sys2Proof.Machine

/-! ## The machine stays consistent (spec 00_scope.md R8, 40_dispatch.md R63, R66, 60_exceptions.md R111) -/

namespace Sys2Proof.Machine

section
variable {c : Config} {s t : State}

/-- A rule that answers words and leaves the core Running commits to a consistent state. -/
theorem commit_consistent {r : Except Raise State} (h : s.HoldsWords c .running) (hc : c.wf = true)
    (hr : Answers c (State.HoldsWords c .running) r) (hcommit : commit s r = .next t) : t.Consistent := by
  rcases hr.cases with ⟨u, rfl, hu⟩ | ⟨e, rfl, he⟩ <;> cases hcommit
  · exact hu.consistent_of_running hc
  · exact h.takeFault_consistent hc h.pc he

theorem jumpIf_holdsWords {run : RunState} (h : (s.advance 2).HoldsWords c run) (b : Bool) {a : Int}
    (ha : c.inDomain a) : (s.jumpIf b a).HoldsWords c run := by
  unfold State.jumpIf
  split
  · exact h.setPc ha
  · exact h

/-- A well-formed instruction inside memory takes a Running core to a consistent state. -/
theorem exec_consistent {i : Instr} (h : s.HoldsWords c .running) (hc : c.wf = true) (h0 : 0 ≤ s.pc)
    (h1 : s.pc + i.length ≤ c.memSize) (hi : wellFormed c i = true) (hexec : exec i s = .next t) : t.Consistent := by
  have hnext : (s.advance i.length).HoldsWords c .running := h.setPc (inDomain_of_address hc (by omega) h1)
  cases i with
  | brk | dbg =>
    cases hexec
    refine (hnext.setRun _).consistent hc ?_
    show 1 ≤ s.pc + 1 ∧ s.pc + 1 ≤ s.cfg.memSize
    rw [h.cfg]
    exact ⟨by omega, h1⟩
  | load r v => cases hexec; exact (hnext.setReg r hi).consistent_of_running hc
  | mov r q => cases hexec; exact (hnext.setReg r (h.regs q)).consistent_of_running hc
  | push r => exact commit_consistent h hc (push_answers hnext hc (h.regs r)) hexec
  | pop r =>
    refine commit_consistent h hc ?_ hexec
    rcases (pop_answers hnext hc).cases with ⟨⟨v, u⟩, hpop, hv, hu⟩ | ⟨e, hpop, he⟩ <;>
      rw [Instr.length] at hpop <;> simp only [hpop]
    · exact hu.setReg r hv
    · exact he
  | add | addi | sub | subi | mul | muli =>
    cases hexec; exact (hnext.setReg .ac (h.wrap _)).consistent_of_running hc
  | inc r | dec r => cases hexec; exact (hnext.setReg r (h.wrap _)).consistent_of_running hc
  | cmp r q => cases hexec; exact (hnext.compareFlags _ _).consistent_of_running hc
  | clf => cases hexec; exact hnext.clearFlags.consistent_of_running hc
  | jmp a | jz a | jnz a | je a | jne a =>
    cases hexec; exact (jumpIf_holdsWords hnext _ hi).consistent_of_running hc
  | call a =>
    refine commit_consistent h hc ?_ hexec
    rcases (enter_answers hnext hc).cases with ⟨u, henter, hu⟩ | ⟨e, henter, he⟩ <;>
      rw [Instr.length] at henter <;> simp only [henter]
    · exact (hu.setPc hi).setCd _
    · exact he
  | ret =>
    refine commit_consistent h hc ?_ hexec
    split
    · exact inDomain_of_byte hc (by decide) (by decide)
    rcases (leave_answers hnext hc).cases with ⟨u, hleave, hu⟩ | ⟨e, hleave, he⟩ <;>
      rw [Instr.length] at hleave <;> simp only [hleave]
    · exact hu.setCd _
    · exact he
  | int k =>
    cases k with
    | putChar => exact commit_consistent h hc (putChar_answers hnext hc) hexec
    | putString => exact commit_consistent h hc (putString_answers hnext hc) hexec
    | readLine =>
      cases hexec
      refine (hnext.setRun _).consistent hc ?_
      show 0 ≤ s.pc ∧ s.pc + 2 ≤ s.cfg.memSize ∧ s.pc + 2 = s.pc + 2
      rw [h.cfg]
      exact ⟨h0, h1, rfl⟩

/-- The words of an instruction that stands in cells are words of `V_W`. -/
theorem wellFormed_of_codeAt {run : RunState} {i : Instr} (h : s.HoldsWords c run) (hc : c.wf = true)
    (hcode : s.codeAt i) : wellFormed c i = true := by
  obtain ⟨-, -, hwords⟩ := hcode
  refine (wellFormedMeansEveryWordIsInTheDomain c i hc).2 fun w hw => ?_
  rw [← hwords, List.mem_map] at hw
  obtain ⟨k, -, rfl⟩ := hw
  exact h.cell hc _

/-- A fault of fetch or decoding carries a word: `pc`, `N`, or a word that was read. -/
theorem fetchInstr_error_info {run : RunState} {e : Raise} (h : s.HoldsWords c run) (hc : c.wf = true)
    (herr : s.fetchInstr = .error e) : c.inDomain e.info := by
  have hcase := fetchInstr_cases s
  rw [herr] at hcase
  cases hcase with
  | opcodeOutside _ _ hinfo => rw [hinfo]; exact h.pc
  | invalidOpcode => exact h.cell hc _
  | operandOutside =>
    show c.inDomain (s.cfg.memSize : Int)
    rw [h.cfg]
    exact inDomain_of_address hc (by omega) (by omega)
  | undecodable f e haddr _ hfit hd =>
    obtain ⟨h0, -⟩ := haddr
    rw [h.cfg] at hfit
    rcases decodeOperands_error_info (s.pc + 1 + f.format.arity) hd with hinfo | hinfo
    · rw [hinfo]; exact inDomain_of_address hc (by omega) hfit
    · obtain ⟨k, -, hk⟩ := List.mem_map.1 hinfo
      rw [← hk]; exact h.cell hc _

/-- The second phase of INT 2 leaves a consistent state: the line stored and the core Running, or the INT at fault. -/
theorem readLineDeliver_consistent {run : RunState} {fpc : Int} {line : List Int} (h : s.HoldsWords c run)
    (hc : c.wf = true) (hfpc : c.inDomain fpc) (hline : ∀ v ∈ line, c.inDomain v) :
    (s.readLineDeliver fpc line).Consistent := by
  rcases (readLineStore_answers h hc hline).cases with ⟨t, hs, ht⟩ | ⟨e, hs, he⟩ <;>
    simp only [State.readLineDeliver, hs]
  · exact ht.consistent_of_running hc
  · exact h.takeFault_consistent hc hfpc he

/-- Storing an image of words while Ready leaves a consistent Ready core. -/
theorem memWriteList_consistent {a : Int} {ws : List Int} (h : s.HoldsWords c .ready) (hc : c.wf = true)
    (h0 : 0 ≤ a) (h1 : a + ws.length ≤ c.memSize) (hws : ws.all c.wordBits.contains = true)
    (hwrite : s.memWriteList a ws = .ok t) : t.Consistent := by
  have hall := memWriteList_answers ws h (List.all_eq_true.1 hws) h0 h1
  rw [hwrite] at hall
  exact State.HoldsWords.consistent hall hc (by simp [State.runConsistent, hall.runIs])

/-- An accepted boundary operation keeps the machine consistent. -/
theorem hostAct_consistent {op : HostOp} (hs : s.Consistent) (h : hostAct op s = some t) : t.Consistent := by
  obtain ⟨hc, hwords, hrun⟩ := State.consistent_iff.1 hs
  cases hostAct_cases h with
  | load a ws t hready h0 h1 hws hw | seed a ws t hready h0 h1 hws hw =>
    rw [hready] at hwords
    exact memWriteList_consistent hwords hc h0 h1 hws hw
  | setEntry a hready ha =>
    refine (hwords.setPc ha).consistent hc ?_
    simp [State.runConsistent, hready]
  | run => exact (hwords.setRun .running).consistent_of_running hc
  | deliverLine fpc line hinput hline =>
    simp only [State.runConsistent, hinput] at hrun
    obtain ⟨h0, h1, -⟩ := hrun
    refine readLineDeliver_consistent hwords hc (inDomain_of_address hc (by omega) (by omega)) fun v hv => ?_
    have hv := List.all_eq_true.1 hline v hv
    simp only [Bool.and_eq_true] at hv
    exact hv.2
  | resume => exact (hwords.setRun .running).consistent_of_running hc
  | terminate hdebug =>
    refine (hwords.setRun _).consistent hc ?_
    simp only [State.runConsistent, hdebug] at hrun
    exact hrun

/-- The queue of host operations and their answers are no state of the spec, so they do not bear on consistency. -/
theorem State.Consistent.withQueue (h : s.Consistent) (inbox : List HostOp) (replies : List HostReply) :
    ({ s with inbox := inbox, replies := replies } : State).Consistent :=
  ⟨h.cfg, h.memForm, h.memCells, h.regs, h.pc, h.fs, h.df, h.out, h.run⟩

theorem hostTurn_consistent (hs : s.Consistent) : s.hostTurn.Consistent := by
  rcases hostTurn_cases s with ⟨-, ht⟩ | ⟨op, rest, -, ⟨t, hact, ht⟩ | ⟨-, ht⟩⟩ <;> rw [ht]
  · exact hs
  · exact (hostAct_consistent hs hact).withQueue _ _
  · exact hs.withQueue _ _

end

/-- Settles O11: a Running core executes an instruction made of words, or takes a fault with a word as its information; in every
other run state the host's turn keeps the machine consistent. -/
theorem stepKeepsTheMachineConsistent : Obligations.StepKeepsTheMachineConsistent := by
  intro s t hs h
  obtain ⟨hc, hwords, -⟩ := State.consistent_iff.1 hs
  rcases step_cases h with ⟨i, hrun, hfetch, hexec⟩ | ⟨e, hrun, herr, rfl⟩ | ⟨-, rfl⟩
  · have hcode := codeAt_of_fetchInstr hfetch
    have hi := wellFormed_of_codeAt hwords hc hcode
    obtain ⟨h0, h1, -⟩ := hcode
    rw [hrun] at hwords
    exact exec_consistent hwords hc h0 h1 hi hexec
  · exact hwords.takeFault_consistent hc hwords.pc (fetchInstr_error_info hwords hc herr)
  · exact hostTurn_consistent hs

/-- A constructed machine holds zeros and STACK_BASE, which R6 puts in `[0, N]`. -/
theorem construct_consistent {c : Config} (hc : c.wf = true) : (State.construct c).Consistent := by
  have hzero : c.inDomain 0 := inDomain_of_byte hc (by decide) (by decide)
  have hbase : c.inDomain c.stackBase := inDomain_of_address hc (by omega) (by exact_mod_cast stackBase_le_of_wf hc)
  have hregs : ∀ r, c.inDomain ((State.construct c).reg r) := fun r => by
    cases r with
    | sp | fp => exact hbase
    | _ => exact hzero
  have hwords : (State.construct c).HoldsWords c .ready :=
    ⟨rfl, rfl, ⟨.nil, by simp [State.construct]⟩, by simp [State.construct], hregs, hzero, hzero, rfl,
      by simp [State.construct]⟩
  exact hwords.consistent hc trivial

/-- Settles O12: the parameters of the reset state are within R6. -/
theorem constructedMachineIsConsistent : Obligations.ConstructedMachineIsConsistent :=
  ⟨fun _ hc => construct_consistent hc, construct_consistent (by decide)⟩

end Sys2Proof.Machine

/-! ## The frame invariant (spec 41_stack_frame.md R73 to R75, 44_control_transfer.md R99, R100) -/

namespace Sys2Proof.Machine

section
variable {s t : State}

/-- With SP between 0 and `N` under the frame invariant, FS and its neighbour on the way to `N - SP` are not wrapped: they lie
within `N` of 0, with unbounded words always and with finite ones while FP is an address or `N`. -/
theorem frameSize_wrap {d : Int} (hc : s.cfg.wf = true) (hinv : s.frameInvariant)
    (hfp : s.cfg.wordBits = .unbounded ∨ 0 ≤ s.reg .fp ∧ s.reg .fp ≤ s.cfg.memSize) (h0 : 0 ≤ s.reg .sp + d)
    (h1 : s.reg .sp + d ≤ s.cfg.memSize) : s.wrap (s.fs + d) = s.fs + d := by
  unfold State.frameInvariant at hinv
  unfold State.wrap
  rcases hfp with hW | ⟨hf0, hf1⟩
  · rw [hW, wrap_unbounded]
  · exact wrap_of_inDomain hc (inDomain_of_natAbs_le hc (by omega))

theorem push_frameInvariant {v : Int} (hc : s.cfg.wf = true) (hinv : s.frameInvariant)
    (hfp : s.cfg.wordBits = .unbounded ∨ 0 ≤ s.reg .fp ∧ s.reg .fp ≤ s.cfg.memSize) (h : s.push v = .ok t) :
    t.frameInvariant := by
  obtain ⟨h0, h1, rfl⟩ := push_inv h
  have hwrap := frameSize_wrap (d := 1) hc hinv hfp (by omega) (by omega)
  unfold State.frameInvariant at hinv ⊢
  simp only [State.reg_setFs, State.reg_setReg, State.reg_setCell, State.setFs_fs, hwrap, hinv, reduceCtorEq, if_true,
    if_false]
  ring

theorem pop_frameInvariant {v : Int} (hc : s.cfg.wf = true) (hinv : s.frameInvariant)
    (hfp : s.cfg.wordBits = .unbounded ∨ 0 ≤ s.reg .fp ∧ s.reg .fp ≤ s.cfg.memSize) (h : s.pop = .ok (v, t)) :
    t.frameInvariant := by
  obtain ⟨h0, h1, -, rfl⟩ := pop_inv h
  have hwrap := frameSize_wrap (d := -1) hc hinv hfp (by omega) (by omega)
  rw [← sub_eq_add_neg] at hwrap
  unfold State.frameInvariant at hinv ⊢
  simp only [State.reg_setFs, State.reg_setReg, State.setFs_fs, hwrap, hinv, reduceCtorEq, if_true, if_false]
  ring

/-- Writing a register other than SP and FP keeps the frame invariant. -/
theorem State.frameInvariant.setReg {r : Reg} {v : Int} (h : s.frameInvariant) (hsp : r ≠ .sp) (hfp : r ≠ .fp) :
    (s.setReg r v).frameInvariant := by
  unfold State.frameInvariant at h ⊢
  rw [State.reg_setReg_other _ _ hsp.symm, State.reg_setReg_other _ _ hfp.symm, State.setReg_fs, h]

/-- A new frame is empty, so `enter()` establishes the frame invariant. -/
theorem enter_frameInvariant (h : s.enter = .ok t) : t.frameInvariant := by
  rw [enter_eq] at h
  split at h <;> cases h
  simp [State.frameInvariant, State.reg_setReg]

/-- What `leave()` does when it completes: it had a whole frame and its arguments below FP. -/
theorem leave_inv (h : s.leave = .ok t) :
    t.reg .sp = s.reg .fp - 11 - s.savedCount ∧ t.reg .fp = s.wrap (s.reg .fp - s.savedSize - 1) ∧
      t.fs = s.wrap (s.savedSize - 10 - s.savedCount) := by
  rcases leave_cases s with ⟨-, he⟩ | ⟨-, he⟩ | he | ⟨hcount, hargs, hfit⟩
  · rw [he] at h; cases h
  · rw [he] at h; cases h
  · rw [he] at h; cases h
  · obtain ⟨u, hok, hsp, hfp, -, hfs, -⟩ := leave_ok hcount hargs hfit
    rw [hok] at h
    cases h
    exact ⟨hsp, hfp, hfs⟩

/-- After `leave()` the frame invariant holds up to `wrap`: the saved size falls out of the sum. -/
theorem leave_wrap_frame (h : s.leave = .ok t) : s.wrap (t.reg .sp) = s.wrap (t.reg .fp + t.fs) := by
  obtain ⟨hsp, hfp, hfs⟩ := leave_inv h
  unfold State.wrap at hfp hfs ⊢
  rw [hsp, hfp, hfs, wrap_wrap_add_wrap]
  congr 1
  ring

/-- After `leave()` the frame invariant holds where the FP and FS it computes are words before any `wrap`. -/
theorem leave_frameInvariant (hc : s.cfg.wf = true) (hF : s.cfg.inDomain (s.reg .fp - s.savedSize - 1))
    (hS : s.cfg.inDomain (s.savedSize - 10 - s.savedCount)) (h : s.leave = .ok t) : t.frameInvariant := by
  obtain ⟨hsp, hfp, hfs⟩ := leave_inv h
  unfold State.wrap at hfp hfs
  rw [wrap_of_inDomain hc hF] at hfp
  rw [wrap_of_inDomain hc hS] at hfs
  rw [State.frameInvariant, hsp, hfp, hfs]
  ring

/-- PUSH, CALL, and POP of a register other than SP and FP keep the frame invariant. -/
theorem exec_frameInvariant {i : Instr} (hc : s.cfg.wf = true) (hinv : s.frameInvariant)
    (hfp : s.cfg.wordBits = .unbounded ∨ 0 ≤ s.reg .fp ∧ s.reg .fp ≤ s.cfg.memSize)
    (hi : (∃ r, i = .push r) ∨ (∃ r, r ≠ .sp ∧ r ≠ .fp ∧ i = .pop r) ∨ ∃ a, i = .call a) (h : exec i s = .next t) :
    t.frameInvariant := by
  rcases hi with ⟨r, rfl⟩ | ⟨r, hsp, hrfp, rfl⟩ | ⟨a, rfl⟩
  · cases exec_cases h with
    | fault => exact hinv
    | push _ _ hp => exact push_frameInvariant (s := s.advance 2) hc hinv hfp hp
  · cases exec_cases h with
    | fault => exact hinv
    | pop _ _ _ hp => exact (pop_frameInvariant (s := s.advance 2) hc hinv hfp hp).setReg hsp hrfp
  · cases exec_cases h with
    | fault => exact hinv
    | call _ u he => exact enter_frameInvariant (t := u) he

end

/-- Settles O41: a RET that completes establishes the invariant anew; every other instruction named keeps it. -/
theorem frameInvariantIsKept : Obligations.FrameInvariantIsKept := by
  refine ⟨fun c => ?_, fun s t i hc hinv hfp hi h => exec_frameInvariant hc hinv hfp hi h, fun s t hc hrun h => ?_⟩
  · simp [State.frameInvariant, State.reg, RegFile.get, State.construct]
  · cases exec_cases h with
    | fault => exact ⟨fun hr => by simp at hr, fun _ hinv => hinv⟩
    | ret u _ hleave =>
      have hkeeps : u.run = .running := by rw [leave_frame hleave]; exact hrun
      refine ⟨fun _ => ⟨leave_wrap_frame (s := s.advance 1) (t := u) hleave, fun hF hS => ?_⟩, fun hne => absurd hkeeps hne⟩
      exact leave_frameInvariant (s := s.advance 1) (t := u) hc hF hS hleave

end Sys2Proof.Machine

/-! ## Register operands (spec 10_state.md R15, 30_encoding.md R48) -/

namespace Sys2Proof

theorem regOfWord_eq_ok_iff {w : Int} {r : Reg} : regOfWord w = .ok r ↔ r.toWord = w :=
  ⟨fun h => (regOfWord_eq_ok h).symm, fun h => h ▸ regOfWord_toWord r⟩

theorem toWord_range (r : Reg) : 0 ≤ r.toWord ∧ r.toWord ≤ 10 := by cases r <;> decide

/-- A word that names no register is BadRegister. -/
theorem regOfWord_outside {w : Int} (h : w < 0 ∨ 10 < w) : regOfWord w = .error (.badRegister w) := by
  cases hw : regOfWord w with
  | ok r =>
    have hrange := toWord_range r
    rw [regOfWord_eq_ok_iff.1 hw] at hrange
    omega
  | error e => rw [(regOfWord_eq_error hw).1]

/-- Every index from 0 to 10 names a register. -/
theorem exists_toWord_eq {w : Int} (h0 : 0 ≤ w) (h1 : w ≤ 10) : ∃ r : Reg, r.toWord = w := by
  cases hw : regOfWord w with
  | ok r => exact ⟨r, regOfWord_eq_ok_iff.1 hw⟩
  | error e => have hout := (regOfWord_eq_error hw).2; omega

/-- Settles O4: the eleven rows by evaluation, the rest from what the operand decoder can do. -/
theorem registerOperandsAreZeroToTen : Obligations.RegisterOperandsAreZeroToTen := by
  refine ⟨⟨rfl, rfl, rfl, rfl, rfl, rfl, rfl, rfl, rfl, rfl, rfl⟩, fun w r => regOfWord_eq_ok_iff, fun w => ⟨?_, ?_⟩,
    fun w => regOfWord_outside⟩
  · exact fun ⟨h0, h1⟩ => exists_toWord_eq h0 h1
  · rintro ⟨r, rfl⟩
    exact toWord_range r

/-! ## Running the decoded instruction (spec 30_encoding.md R55, 40_dispatch.md R63) -/

/-- The row of the opcode lookup for an instruction's opcode: its operand words, as many as the row's format has, decode to the
instruction. -/
theorem opcodeForm_opcode (i : Instr) :
    ∃ f, opcodeForm i.opcode = some f ∧ f.format.arity + 1 = i.length ∧ decodeOperands f i.operandWords = .ok (i, []) := by
  cases i <;> refine ⟨_, rfl, rfl, ?_⟩ <;> simp [Instr.operandWords, decodeOperands]

end Sys2Proof

namespace Sys2Proof.Machine

/-- The instruction whose words stand at `pc` is the one fetched: the converse of `codeAt_of_fetchInstr`. -/
theorem fetchInstr_of_codeAt {s : State} {i : Instr} (h : s.codeAt i) : s.fetchInstr = .ok i := by
  obtain ⟨f, hform, harity, hdec⟩ := opcodeForm_opcode i
  obtain ⟨h0, h1, hwords⟩ := h
  change s.cellsFrom s.pc i.length = i.opcode :: i.operandWords at hwords
  rw [← harity, State.cellsFrom_succ] at hwords
  obtain ⟨hop, hargs⟩ := List.cons.inj hwords
  rw [← harity] at h1
  push_cast at h1
  have hfetch := fetch_ok (s := s) ⟨h0, by omega⟩
  have hmany := fetchMany_ok (s := s.setPc (s.pc + 1)) f.format.arity (by simp; omega) (by simp; omega)
  change _ = Except.ok (s.cellsFrom (s.pc + 1) f.format.arity, _) at hmany
  simp only [State.fetchInstr, hfetch, hop, hform, hmany, hargs, hdec]

/-- Settles O7. -/
theorem stepRunsTheDecodedInstruction : Obligations.StepRunsTheDecodedInstruction := by
  intro s i hrun hcode
  simp only [step, hrun, fetchInstr_of_codeAt hcode]

end Sys2Proof.Machine

/-! ## The constructed machine, LOAD, MOV and CMP (spec 10_state.md R29, 42_data_movement.md, 43_arith_compare.md R91) -/

namespace Sys2Proof.Machine

/-- Settles O13: every cell is unlisted, every register but SP and FP is 0. -/
theorem constructedMachineHasTheResetValues : Obligations.ConstructedMachineHasTheResetValues := by
  intro c
  have hregs : ∀ r ∈ gprs, (State.construct c).reg r = 0 := by
    simp [gprs, State.construct, State.reg, RegFile.get]
  exact ⟨fun _ => Memory.read_nil _, rfl, rfl, rfl, rfl, hregs, rfl, rfl, rfl, rfl, rfl, rfl, rfl⟩

/-- Settles O26: both write one register, the destination. -/
theorem loadAndMovWriteOneRegister : Obligations.LoadAndMovWriteOneRegister := fun s r q v =>
  ⟨⟨_, rfl, setReg_advance_spec s 3 r v⟩, ⟨_, rfl, setReg_advance_spec s 3 r (s.reg q)⟩⟩

/-- Settles O33: the flags are those of `compareFlags`. -/
theorem cmpSetsFlagsAndNeverClears : Obligations.CmpSetsFlagsAndNeverClears := fun s _ _ =>
  ⟨_, rfl, (s.advance 3).compareFlags_ef_iff _ _, (s.advance 3).compareFlags_zf_iff _ _, fun _ => rfl, fun _ => rfl, rfl⟩

end Sys2Proof.Machine

/-! ## What each kind of instruction can change (spec 10_state.md R22 to R28, 40_dispatch.md R61) -/

namespace Sys2Proof.Machine

/-- The cases of `ExecCase`, with what an instruction computes forgotten and what it may write named. -/
inductive ExecFrame (s : State) : Instr → State → Prop where
  | fault (i : Instr) (e : Raise) : ExecFrame s i (s.takeFault s.pc e)
  | registers (i : Instr) (pc : Int) (x : RegFile) : ExecFrame s i { s with pc := pc, x := x }
  | brk : ExecFrame s .brk ((s.advance 1).setRun (.halted .brk))
  | dbg : ExecFrame s .dbg ((s.advance 1).setRun (.suspended .debug))
  | readLine : ExecFrame s (.int .readLine) ((s.advance 2).setRun (.suspended (.input s.pc)))
  | cmp (a b : Reg) : ExecFrame s (.cmp a b) ((s.advance 3).compareFlags (s.reg a) (s.reg b))
  | clf : ExecFrame s .clf (s.advance 1).clearFlags
  | push (r : Reg) (pc : Int) (x : RegFile) (fs : Int) (mem : Memory) :
      ExecFrame s (.push r) { s with pc := pc, x := x, fs := fs, mem := mem }
  | pop (r : Reg) (pc : Int) (x : RegFile) (fs : Int) : ExecFrame s (.pop r) { s with pc := pc, x := x, fs := fs }
  | call (a pc : Int) (x : RegFile) (fs : Int) (mem : Memory) :
      ExecFrame s (.call a) { s with pc := pc, x := x, fs := fs, mem := mem, cd := s.cd + 1 }
  | ret (pc : Int) (x : RegFile) (fs : Int) : s.cd ≠ 0 →
      ExecFrame s .ret { s with pc := pc, x := x, fs := fs, cd := s.cd - 1 }
  | emit (c : IntCode) (cs : List Int) : c ≠ .readLine → ExecFrame s (.int c) ((s.advance 2).emit cs)

/-- A jump writes `pc` only. -/
theorem jumpIf_execFrame (s : State) (i : Instr) (c : Bool) (a : Int) : ExecFrame s i (s.jumpIf c a) := by
  cases c <;> exact .registers i _ s.x

/-- Every next state of `exec` lies within the frame of its instruction. -/
theorem exec_frame {i : Instr} {s t : State} (h : exec i s = .next t) : ExecFrame s i t := by
  cases exec_cases h with
  | fault _ e => exact .fault _ e
  | brk => exact .brk
  | dbg => exact .dbg
  | readLine => exact .readLine
  | cmp a b => exact .cmp a b
  | clf => exact .clf
  | push r t hp => rw [push_frame hp]; exact .push r _ _ _ _
  | pop r v t hp => rw [pop_frame hp]; exact .pop r _ _ _
  | call a t he => rw [enter_frame he]; exact .call a _ _ _ _
  | ret t hcd hl => rw [leave_frame hl]; exact .ret _ _ _ hcd
  | putChar | putString => exact .emit _ _ (by decide)
  | jmp | jz | jnz | je | jne => exact jumpIf_execFrame s _ _ _
  | _ => exact .registers _ _ _

/-- Settles O19: CMP can only raise EF and ZF, CLF clears all three flags, and no other instruction's frame has a flag. -/
theorem flagsAreStickyAndWrittenByCmpAndClfOnly : Obligations.FlagsAreStickyAndWrittenByCmpAndClfOnly := by
  intro i s t h
  cases exec_frame h with
  | cmp a b => exact ⟨fun hcmp => absurd rfl (hcmp a b), fun _ => ⟨by simp +contextual, by simp +contextual, rfl⟩, id⟩
  | clf => exact ⟨fun _ hclf => absurd rfl hclf, fun hclf => absurd rfl hclf, by simp⟩
  | _ => exact ⟨fun _ _ => ⟨rfl, rfl⟩, fun _ => ⟨id, id, rfl⟩, id⟩

/-- Settles O21: FS is in the frame of the four stack instructions only, CD in that of CALL and RET; a RET that completes finds a
CALL outstanding. -/
theorem hiddenCountersChangeByStackInstructionsOnly : Obligations.HiddenCountersChangeByStackInstructionsOnly := by
  intro i s t h
  cases exec_frame h with
  | push r => exact ⟨fun hpush => absurd rfl (hpush r), .inl rfl⟩
  | pop r => exact ⟨fun _ hpop => absurd rfl (hpop r), .inl rfl⟩
  | call a => exact ⟨fun _ _ hcall => absurd rfl (hcall a), .inr (.inl ⟨⟨a, rfl⟩, rfl⟩)⟩
  | ret _ _ _ hcd => exact ⟨fun _ _ _ hret => absurd rfl hret, .inr (.inr ⟨rfl, (Nat.succ_pred_eq_of_ne_zero hcd).symm⟩)⟩
  | _ => exact ⟨fun _ _ _ _ => rfl, .inl rfl⟩

/-- Of all instructions only INT 0 and INT 1 emit. -/
theorem exec_out {i : Instr} {s t : State} (h : exec i s = .next t) :
    ∃ cs, t.out = s.out ++ cs ∧ (i ≠ .int .putChar → i ≠ .int .putString → cs = []) := by
  cases exec_frame h with
  | emit c cs hc =>
    refine ⟨cs, rfl, fun hchar hstring => ?_⟩
    cases c with
    | putChar => exact absurd rfl hchar
    | putString => exact absurd rfl hstring
    | readLine => exact absurd rfl hc
  | _ => exact ⟨[], (List.append_nil _).symm, fun _ _ => rfl⟩

/-- No boundary operation emits. -/
theorem hostAct_out {op : HostOp} {s t : State} (h : hostAct op s = some t) : t.out = s.out := by
  cases hostAct_cases h with
  | load a ws t _ _ _ _ hw | seed a ws t _ _ _ _ hw => rw [memWriteList_frame hw]
  | deliverLine fpc line =>
    rcases readLineDeliver_cases s fpc line with ⟨t, -, ht, hframe⟩ | ⟨e, -, ht⟩
    · rw [ht, hframe]
    · rw [ht]; rfl
  | _ => rfl

/-- The host's turn emits nothing. -/
theorem hostTurn_out (s : State) : s.hostTurn.out = s.out := by
  rcases hostTurn_cases s with ⟨-, ht⟩ | ⟨op, rest, -, ⟨t, hact, ht⟩ | ⟨-, ht⟩⟩
  · rw [ht]
  · rw [ht, ← hostAct_out hact]
  · rw [ht]

/-- Settles O22. -/
theorem outputIsOnlyAppendedTo : Obligations.OutputIsOnlyAppendedTo := by
  refine ⟨fun s t h => ?_, fun i s t h hchar hstring => ?_⟩
  · rcases step_cases h with ⟨i, -, -, hexec⟩ | ⟨e, -, -, rfl⟩ | ⟨-, rfl⟩
    · obtain ⟨cs, hcs, -⟩ := exec_out hexec
      exact ⟨cs, hcs⟩
    · exact ⟨[], (List.append_nil _).symm⟩
    · exact ⟨[], by rw [hostTurn_out, List.append_nil]⟩
  · obtain ⟨cs, hcs, hempty⟩ := exec_out h
    rw [hcs, hempty hchar hstring, List.append_nil]

/-! ### The run state -/

/-- What an instruction makes of the run state: only BRK, DBG, INT 2 and a fault change it. -/
theorem exec_run {i : Instr} {s t : State} (h : exec i s = .next t) :
    t.run = s.run ∨ i = .brk ∧ t.run = .halted .brk ∨ i = .dbg ∧ t.run = .suspended .debug ∨
      i = .int .readLine ∧ t.run = .suspended (.input s.pc) ∨ ∃ k v, t.run = .faulted ⟨k, v, s.pc⟩ := by
  cases exec_frame h with
  | fault _ e => exact .inr (.inr (.inr (.inr ⟨e.kind, e.info, rfl⟩)))
  | brk => exact .inr (.inl ⟨rfl, rfl⟩)
  | dbg => exact .inr (.inr (.inl ⟨rfl, rfl⟩))
  | readLine => exact .inr (.inr (.inr (.inl ⟨rfl, rfl⟩)))
  | _ => exact .inl rfl

/-- The transitions of R61 that the host makes; a turn without an accepted operation makes none. -/
inductive HostTransition : RunState → RunState → Prop where
  | stay (r : RunState) : HostTransition r r
  | start : HostTransition .ready .running
  | lineStored (p : Int) : HostTransition (.suspended (.input p)) .running
  | lineFaults (p : Int) (k : FaultKind) (v : Int) : HostTransition (.suspended (.input p)) (.faulted ⟨k, v, p⟩)
  | resume : HostTransition (.suspended .debug) .running
  | terminate : HostTransition (.suspended .debug) (.halted .debugTerminate)

theorem hostAct_transition {op : HostOp} {s t : State} (h : hostAct op s = some t) : HostTransition s.run t.run := by
  cases hostAct_cases h with
  | load a ws t _ _ _ _ hw | seed a ws t _ _ _ _ hw => rw [memWriteList_frame hw]; exact .stay _
  | setEntry => exact .stay _
  | run hrun => rw [hrun]; exact .start
  | resume hrun => rw [hrun]; exact .resume
  | terminate hrun => rw [hrun]; exact .terminate
  | deliverLine fpc line hrun =>
    rw [hrun]
    rcases readLineDeliver_cases s fpc line with ⟨t, -, ht, hframe⟩ | ⟨e, -, ht⟩
    · rw [ht, hframe]; exact .lineStored fpc
    · rw [ht]; exact .lineFaults fpc e.kind e.info

theorem hostTurn_transition (s : State) : HostTransition s.run s.hostTurn.run := by
  rcases hostTurn_cases s with ⟨-, ht⟩ | ⟨op, rest, -, ⟨t, hact, ht⟩ | ⟨-, ht⟩⟩
  · rw [ht]; exact .stay _
  · have hmove := hostAct_transition hact
    rw [ht]
    exact hmove
  · rw [ht]; exact .stay _

/-- Settles O16: a Running core moves by its instruction or a fault of its fetch, every other core by the host's turn. -/
theorem runStateFollowsTheTransitionTable : Obligations.RunStateFollowsTheTransitionTable := by
  intro s t h
  rcases step_cases h with ⟨i, hrun, -, hexec⟩ | ⟨e, hrun, -, rfl⟩ | ⟨hrun, rfl⟩
  · have hmove := exec_run hexec
    rw [hrun] at hmove ⊢
    tauto
  · rw [hrun]
    exact .inr (.inr (.inr (.inr ⟨e.kind, e.info, rfl⟩)))
  · have hmove := hostTurn_transition s
    revert hrun hmove
    generalize s.run = r, s.hostTurn.run = r'
    rintro hrun (_ | _ | _ | _ | _ | _)
    case stay =>
      cases r with
      | running => exact absurd rfl hrun
      | suspended k => cases k <;> exact .inl rfl
      | ready => exact .inl rfl
      | halted | faulted => rfl
    case start => exact .inr rfl
    case lineStored => exact .inr (.inl rfl)
    case lineFaults k v => exact .inr (.inr ⟨k, v, rfl⟩)
    case resume => exact .inr (.inl rfl)
    case terminate => exact .inr (.inr rfl)

end Sys2Proof.Machine

/-! ## CALL, RET and their match (spec 41_stack_frame.md R74 to R78, 44_control_transfer.md R99, R100) -/

namespace Sys2Proof.Machine

/-- CALL with room for the frame is `enter()`, then the jump and the count of the call. -/
theorem exec_call_ok {s u : State} (a : Int) (h : (s.advance 2).enter = .ok u) :
    exec (.call a) s = .next ((u.setPc a).setCd (u.cd + 1)) := by
  change commit s _ = _
  rw [h]
  rfl

/-- RET with a CALL outstanding is `leave()`, then the count of the return. -/
theorem exec_ret_ok {s u : State} (hcd : s.cd ≠ 0) (h : (s.advance 1).leave = .ok u) :
    exec .ret s = .next (u.setCd (u.cd - 1)) := by
  change commit s _ = _
  rw [if_neg hcd, h]
  rfl

/-- Settles O36: the ten words are those `enter()` pushes. -/
theorem callSavesTheStateAndJumps : Obligations.CallSavesTheStateAndJumps := by
  intro s a hm h0 h1
  obtain ⟨u, henter, hsp, hfp, hfs, hregs, hcells, hothers, -, hframe⟩ := enter_ok (s := s.advance 2) hm h0 h1
  have hfield : u.cd = s.cd := by rw [hframe]; rfl
  have hcell : ∀ k (h : k < 10), u.cell (s.reg .sp + (k : Nat)) = (s.advance 2).frameWords[k]'h := hcells
  refine ⟨_, exec_call_ok a henter,
    ⟨(congrArg u.cell (add_zero _)).symm.trans (hcell 0 (by decide)), hcell 1 (by decide), hcell 2 (by decide),
      hcell 3 (by decide), hcell 4 (by decide), hcell 5 (by decide), hcell 6 (by decide), hcell 7 (by decide),
      hcell 8 (by decide), hcell 9 (by decide)⟩,
    fun b hb hout => hothers b hb.1 hout, hsp, hfp, hregs, ?_⟩
  rw [hfield]
  conv_lhs => rw [hframe, hfs]
  rfl

/-- Settles O38: the frame is what `leave()` reads. -/
theorem retRestoresTheFrame : Obligations.RetRestoresTheFrame := by
  intro s n hcd h1 hn hn0 h0
  subst hn
  obtain ⟨u, hleave, hsp, hfp, hac, hfs, hregs, hpc, hframe⟩ := leave_ok (s := s.advance 1) hn0 h0 h1
  have hcell : ∀ k (h : k < gprs.length), u.reg gprs[k] = s.cell (s.reg .fp - 10 + k) := hregs
  have hreg : ∀ (r : Reg) (k : Nat) (d : Int) (h : k < gprs.length), gprs[k] = r → -10 + (k : Int) = -d →
      u.reg r = s.cell (s.reg .fp - d) := by
    rintro r k d h rfl hd
    rw [hcell k h]
    congr 1
    omega
  have hfield : u.cd = s.cd := by rw [hframe]; rfl
  refine ⟨_, exec_ret_ok hcd hleave,
    ⟨hreg .r0 0 10 (by decide) rfl (by decide), hreg .r1 1 9 (by decide) rfl (by decide),
      hreg .r2 2 8 (by decide) rfl (by decide), hreg .r3 3 7 (by decide) rfl (by decide),
      hreg .r4 4 6 (by decide) rfl (by decide), hreg .r5 5 5 (by decide) rfl (by decide),
      hreg .r6 6 4 (by decide) rfl (by decide), hreg .r7 7 3 (by decide) rfl (by decide)⟩,
    hpc, hfs, hfp, hsp, hac, fun b => ?_, ?_⟩
  · rw [State.cell_setCd, hframe]; rfl
  · rw [hfield]
    conv_lhs => rw [hframe]
    rfl

/-- The FP that `leave()` computes, one less than `F - S`, is the caller's where `F` is the caller's SP plus 10 and `S` its
FS plus 9 (R78; 90_conflicts.md C1). -/
theorem wrap_caller_fp {W : WordBits} {fp fs : Int} (h : wrap W fp = fp) :
    wrap W (fp + fs + 10 - wrap W (fs + 9) - 1) = fp := by
  rw [wrap_sub_wrap_sub, show fp + fs + 10 - (fs + 9) - 1 = fp by ring, h]

/-- The FS that `leave()` computes is the caller's before it pushed `n` arguments and their count. -/
theorem wrap_caller_fs {W : WordBits} {k n : Int} (h : wrap W k = k) :
    wrap W (wrap W (k + n + 1 + 9) - 10 - n) = k := by
  rw [sub_sub, wrap_wrap_sub, show k + n + 1 + 9 - (10 + n) = k by ring, h]

/-- Settles O40: what RET reads from the frame is what CALL wrote there; the saved size `FS + 9` is the distance from the caller's
FP to the frame size's own cell, so that FP, and with the popped arguments FS, come out as the caller's. -/
theorem matchingRetRestoresTheCaller : Obligations.MatchingRetRestoresTheCaller := by
  intro s a n k hc hm hfpWord hkWord hinv hfs hcount hn h0 h1
  obtain ⟨u, hcall, ⟨hc0, hc1, hc2, hc3, hc4, hc5, hc6, hc7, hc8, hc9⟩, hothers, -, hufp, -, huframe⟩ :=
    callSavesTheStateAndJumps s a hm (by omega) h1
  refine ⟨u, hcall, fun v hcfg hvfp hcd hkept => ?_⟩
  have hcfgS : v.cfg = s.cfg := by rw [hcfg, huframe]
  rw [hufp] at hvfp
  have hcell : ∀ d e : Int, 1 ≤ d ∧ d ≤ 11 ∧ e = 10 - d → v.cell (v.reg .fp - d) = u.cell (s.reg .sp + e) := by
    rintro d _ ⟨hd0, hd1, rfl⟩
    rw [hvfp, show s.reg .sp + 10 - d = s.reg .sp + (10 - d) by ring]
    exact hkept _ (by omega) (by omega)
  have hvcount : v.cell (v.reg .fp - 11) = n := by
    rw [hcell 11 (-1) (by decide), ← sub_eq_add_neg,
      hothers _ ⟨by omega, by omega⟩ (.inl (by omega)), hcount]
  obtain ⟨w, hret, ⟨hr0, hr1, hr2, hr3, hr4, hr5, hr6, hr7⟩, hpc, hwfs, hwfp, hwsp, hac, hcells, hframe⟩ :=
    retRestoresTheFrame v n hcd (by rw [hvfp, hcfgS]; exact h1) hvcount.symm hn (by rw [hvfp]; omega)
  have hsize : v.cell (v.reg .fp - 1) = wrap s.cfg.wordBits (s.fs + 9) := by
    rw [hcell 1 9 (by decide), hc9]
  have hFp : w.reg .fp = s.reg .fp := by
    rw [hwfp, hsize, hcfgS, hvfp, hinv, wrap_caller_fp (wrap_of_inDomain hc hfpWord)]
  have hFs : w.fs = k := by rw [hwfs, hsize, hcfgS, hfs, wrap_caller_fs (wrap_of_inDomain hc hkWord)]
  have hSp : w.reg .sp = s.reg .fp + k := by rw [hwsp, hvfp, hinv, hfs]; ring
  refine ⟨w, hret, ?_, hFp, hSp, hFs, by rw [State.frameInvariant, hSp, hFp, hFs], ?_, hac, hcells, ?_⟩
  · have hz : u.cell (s.reg .sp + 0) = s.reg .r0 := by rw [add_zero, hc0]
    simp only [gprs, List.forall_mem_cons, List.not_mem_nil, false_imp_iff, implies_true, and_true]
    exact ⟨hr0.trans ((hcell 10 0 (by decide)).trans hz), hr1.trans ((hcell 9 1 (by decide)).trans hc1),
      hr2.trans ((hcell 8 2 (by decide)).trans hc2), hr3.trans ((hcell 7 3 (by decide)).trans hc3),
      hr4.trans ((hcell 6 4 (by decide)).trans hc4), hr5.trans ((hcell 5 5 (by decide)).trans hc5),
      hr6.trans ((hcell 4 6 (by decide)).trans hc6), hr7.trans ((hcell 3 7 (by decide)).trans hc7)⟩
  · exact hpc.trans ((hcell 2 8 (by decide)).trans hc8)
  · exact hframe

end Sys2Proof.Machine

/-! ## The boot sequence (spec 70_reset_and_hazards.md R136) -/

namespace Sys2Proof.Machine

/-- A step of a core that is not Running does the first pending operation when the core accepts it. -/
theorem step_hostAct {s t : State} {op : HostOp} {rest : List HostOp} (hrun : s.run ≠ .running) (hin : s.inbox = op :: rest)
    (h : hostAct op s = some t) : step s = .next { t with inbox := rest, replies := t.replies ++ [.accepted] } := by
  have hturn : s.hostTurn = { t with inbox := rest, replies := t.replies ++ [.accepted] } := by
    simp only [State.hostTurn, hin, h]
  rw [← hturn]
  unfold step
  split
  · next hr => exact absurd hr hrun
  all_goals rfl

/-- A run of one more step, when the first step answers a next state. -/
theorem core_run_succ {s t : State} (k : Nat) (h : step s = .next t) : core.run (k + 1) s = core.run k t := by
  have hcore : core.step s = .next t := h
  simp only [Host.Core.run, hcore]

/-- Load in Ready of words that fit in memory is the writing of those words. -/
theorem hostAct_load_ok {s t : State} {off : Int} {ws : List Int} (hrun : s.run = .ready) (h0 : 0 ≤ off)
    (h1 : off + ws.length ≤ s.cfg.memSize) (hws : ∀ w ∈ ws, s.cfg.inDomain w) (h : s.memWriteList off ws = .ok t) :
    hostAct (.load off ws) s = some t := by
  simp only [hostAct, hostLoad, h]
  exact if_pos ⟨hrun, h0, h1, List.all_eq_true.2 hws⟩

theorem hostAct_setEntry_ok {s : State} {a : Int} (hrun : s.run = .ready) (ha : s.cfg.inDomain a) :
    hostAct (.setEntry a) s = some (s.setPc a) := if_pos ⟨hrun, ha⟩

theorem hostAct_run_ok {s : State} (hrun : s.run = .ready) : hostAct .run s = some (s.setRun .running) := if_pos hrun

/-- Settles O51: one step for each of the three operations, each accepted in Ready. -/
theorem bootSequenceStartsTheProgram : Obligations.BootSequenceStartsTheProgram := by
  intro c off entry ws h0 h1 hws hentry
  obtain ⟨t, hwrite, hcells, hothers, -, hframe⟩ :=
    memWriteList_ok (s := { State.construct c with inbox := [.load off ws, .setEntry entry, .run] }) ws
      ⟨.nil, by simp [State.construct]⟩ h0 h1
  have hload := step_hostAct (s := { State.construct c with inbox := [.load off ws, .setEntry entry, .run] })
    (by simp [State.construct]) rfl (hostAct_load_ok rfl h0 h1 hws hwrite)
  rw [hframe] at hload
  refine ⟨_, ((core_run_succ 2 hload).trans (core_run_succ 1 (step_hostAct (by simp [State.construct]) rfl
    (hostAct_setEntry_ok rfl hentry)))).trans (core_run_succ 0 (step_hostAct (by simp [State.construct]) rfl
    (hostAct_run_ok rfl))), hcells, fun b hb hout => (hothers b hb hout).trans (Memory.read_nil _), rfl⟩

end Sys2Proof.Machine

/-! ## The assembler: from items to words (spec 30_encoding.md R57, R58) -/

namespace Sys2Proof.Assembler

/-- What an instruction item stands for, its row named by the lookup of the mnemonic. -/
theorem itemStandsFor_instruction_iff {table : List (List Char × Int)} {m : List Char} {ops : List (List Char)}
    {ws : List Int} :
    itemStandsFor table (.instruction m ops) ws ↔
      ∃ row, rowOf m = some row ∧ ∃ vs, ws = row.opcode :: vs ∧ operandsStandFor table row.format.operands ops vs := by
  simp only [itemStandsFor, rowOf_eq_some_iff, and_assoc]

/-- The words of a list of items are those its first item stands for, and then those of the rest. -/
theorem itemWords_cons_eq_ok_iff {table : List (List Char × Int)} (h : (table.map Prod.fst).Nodup) {it : Item}
    {rest : List Item} {ws : List Int} :
    itemWords table (it :: rest) = .ok ws ↔
      ∃ part, itemStandsFor table it part ∧ ∃ vs, itemWords table rest = .ok vs ∧ ws = part ++ vs := by
  cases it with
  | label n => simp [itemWords, itemStandsFor]
  | instruction m ops =>
    constructor
    · intro hws
      simp only [itemWords] at hws
      split at hws
      · cases hws
      · next row hrow =>
        split at hws
        · cases hws
        · next us hops =>
          split at hws <;> cases hws
          next vs hvs =>
          exact ⟨row.opcode :: us, itemStandsFor_instruction_iff.2 ⟨row, hrow, us, rfl, (operandWords_eq_ok_iff h).1 hops⟩,
            vs, hvs, rfl⟩
    · rintro ⟨part, hpart, vs, hvs, rfl⟩
      obtain ⟨row, hrow, us, rfl, hops⟩ := itemStandsFor_instruction_iff.1 hpart
      simp only [itemWords, hrow, (operandWords_eq_ok_iff h).2 hops, hvs, List.cons_append]

/-- The words of a list of items are what its items stand for, one after the other. -/
theorem itemWords_eq_ok_iff {table : List (List Char × Int)} (h : (table.map Prod.fst).Nodup) {its : List Item}
    {ws : List Int} :
    itemWords table its = .ok ws ↔ ∃ parts, List.Forall₂ (itemStandsFor table) its parts ∧ ws = parts.flatten := by
  induction its generalizing ws with
  | nil => simp [itemWords, eq_comm]
  | cons it rest ih =>
    rw [itemWords_cons_eq_ok_iff h]
    constructor
    · rintro ⟨part, hpart, vs, hvs, rfl⟩
      obtain ⟨parts, hparts, rfl⟩ := ih.1 hvs
      exact ⟨part :: parts, .cons hpart hparts, rfl⟩
    · rintro ⟨_, hparts, rfl⟩
      cases hparts with
      | cons hpart hrest => exact ⟨_, hpart, _, ih.2 ⟨_, hrest, rfl⟩, rfl⟩

/-- A text assembles exactly when its labels have addresses, no label stands twice, and its items have words. -/
theorem assemble_eq_ok_iff {origin : Int} {src : List Char} {ws : List Int} :
    assemble origin src = .ok ws ↔
      ∃ table, labelAddresses origin [] (items src) = .ok table ∧ (table.map Prod.fst).Nodup ∧
        itemWords table (items src) = .ok ws := by
  unfold assemble
  cases labelAddresses origin [] (items src) with
  | error e => simp
  | ok table =>
    simp only [Except.ok.injEq, exists_eq_left', ← firstDuplicate_eq_none_iff]
    cases firstDuplicate table <;> simp

/-- Settles O54, by induction on the items. -/
theorem assembledItemsAreWholeInstructions : Obligations.AssembledItemsAreWholeInstructions := by
  refine ⟨fun table its ws h => itemWords_eq_ok_iff h, fun origin src ws => assemble_eq_ok_iff.trans ?_⟩
  refine exists_congr fun table => ⟨?_, ?_⟩
  · rintro ⟨hlabels, hnodup, hwords⟩
    obtain ⟨parts, hparts, hws⟩ := (itemWords_eq_ok_iff hnodup).1 hwords
    exact ⟨parts, hlabels, hnodup, hparts, hws⟩
  · rintro ⟨parts, hlabels, hnodup, hparts, hws⟩
    exact ⟨hlabels, hnodup, (itemWords_eq_ok_iff hnodup).2 ⟨parts, hparts, hws⟩⟩

end Sys2Proof.Assembler

/-! ## The assembler: a program written out as text (spec 30_encoding.md R57, R60) -/

namespace Sys2Proof.Assembler

/-! ### Numbers -/

/-- The text of a number that starts with a digit has no sign. -/
theorem integerValue_of_naturalValue {cs : List Char} {n : Nat} (h : naturalValue cs = some n) :
    integerValue cs = some (n : Int) := by
  obtain ⟨-, hdigits, -⟩ := naturalValue_eq_some_iff.1 h
  unfold integerValue
  split
  · exact absurd (hdigits '-' (by simp)) (by decide)
  · exact absurd (hdigits '+' (by simp)) (by decide)
  · rw [h]; rfl

/-- A number written as a signed decimal reads as that number. -/
theorem integerValue_decimalText (v : Int) : integerValue (decimalText v) = some v := by
  unfold decimalText
  split
  · next hneg =>
    simp only [integerValue, naturalValue_toDigits, Option.map_some]
    congr 1
    omega
  · next hpos =>
    rw [integerValue_of_naturalValue (naturalValue_toDigits v.natAbs)]
    congr 1
    omega

/-! ### The row of an instruction -/

/-- The format of an instruction (R51). -/
def formatOf : Instr → Format
  | .brk | .dbg | .clf | .ret => .f0
  | .push _ | .pop _ | .inc _ | .dec _ => .f1r
  | .jmp _ | .jz _ | .jnz _ | .je _ | .jne _ | .call _ => .f1t
  | .int _ => .f1c
  | .mov _ _ | .add _ _ | .sub _ _ | .mul _ _ | .cmp _ _ => .f2rr
  | .load _ _ | .addi _ _ | .subi _ _ | .muli _ _ => .f2ri

/-- An instruction's opcode, mnemonic and format are a row of the opcode map (R52). -/
theorem instr_row_mem (i : Instr) : ⟨i.opcode, i.mnemonic, formatOf i⟩ ∈ opcodeMap := by
  cases i <;> simp [opcodeMap, Instr.opcode, Instr.mnemonic, formatOf]

theorem regName_standsFor (table : List (List Char × Int)) (r : Reg) :
    operandStandsFor table .register r.name.toList r.toWord := ⟨r, rfl, rfl⟩

theorem decimalText_standsFor (table : List (List Char × Int)) {k : OperandKind} (hk : k ≠ .register) (v : Int) :
    operandStandsFor table k (decimalText v) v := by
  cases k with
  | register => exact absurd rfl hk
  | immediate | interruptCode => exact integerValue_decimalText v
  | target => exact .inl (integerValue_decimalText v)

/-- The operand texts of an instruction stand for its operand words. -/
theorem operandTexts_standFor (table : List (List Char × Int)) (i : Instr) :
    operandsStandFor table (formatOf i).operands i.operandTexts i.operandWords := by
  cases i <;> simp [formatOf, Format.operands, Instr.operandTexts, Instr.operandWords, operandsStandFor, regName_standsFor,
    decimalText_standsFor]

/-! ### Plain words -/

/-- A letter, a digit or a minus sign: what mnemonics, register names and numbers are written with. -/
def plainChar (c : Char) : Bool := c.isAlphanum || c == '-'

/-- A nonempty text of such characters. -/
def Plain (t : List Char) : Prop := t ≠ [] ∧ t.all plainChar = true

/-- A separator of R57 is not in a plain text. -/
theorem Plain.not_mem {t : List Char} (h : Plain t) {c : Char} (hc : plainChar c = false) : c ∉ t := fun hmem => by
  rw [List.all_eq_true.1 h.2 c hmem] at hc
  cases hc

theorem plain_of_mem_opcodeMap : ∀ row ∈ opcodeMap, Plain row.mnemonic.toList := by
  unfold Plain
  decide

theorem plain_mnemonic (i : Instr) : Plain i.mnemonic.toList := plain_of_mem_opcodeMap _ (instr_row_mem i)

theorem plain_regName (r : Reg) : Plain r.name.toList := by
  unfold Plain
  cases r <;> decide

theorem plain_decimalText (v : Int) : Plain (decimalText v) := by
  have hdigits : Plain (Nat.toDigits 10 v.natAbs) := by
    obtain ⟨hne, hdig, -⟩ := naturalValue_eq_some_iff.1 (naturalValue_toDigits v.natAbs)
    exact ⟨hne, List.all_eq_true.2 fun c hc => by simp [plainChar, Char.isAlphanum, hdig c hc]⟩
  unfold decimalText
  split
  · exact ⟨List.cons_ne_nil _ _, by rw [List.all_cons, hdigits.2]; rfl⟩
  · exact hdigits

theorem plain_operandTexts (i : Instr) : ∀ t ∈ i.operandTexts, Plain t := by
  cases i <;> simp [Instr.operandTexts, plain_regName, plain_decimalText]

/-- The words of an instruction's text: the mnemonic and the operands. -/
def instrTokens (i : Instr) : List (List Char) := i.mnemonic.toList :: i.operandTexts

theorem plain_instrTokens (i : Instr) : ∀ t ∈ instrTokens i, Plain t :=
  List.forall_mem_cons.2 ⟨plain_mnemonic i, plain_operandTexts i⟩

/-! ### From an instruction's text to its item -/

/-- Operands separated by `, ` or by a space come out separated by a space. -/
theorem commaToSpace_intercalate (comma : Bool) (ts : List (List Char)) (h : ∀ t ∈ ts, Plain t) :
    commaToSpace ((if comma then [',', ' '] else [' ']).intercalate ts) = [' '].intercalate ts := by
  induction ts with
  | nil => rfl
  | cons t ts ih =>
    obtain ⟨ht, hts⟩ := List.forall_mem_cons.1 h
    have hcomma : ',' ∉ t := ht.not_mem (by decide)
    cases ts with
    | nil => simpa [commaToSpace] using commaToSpace_append hcomma []
    | cons u us =>
      rw [List.intercalate_cons_cons, List.intercalate_cons_cons, List.append_assoc, List.append_assoc,
        commaToSpace_append hcomma, ← ih hts]
      cases comma <;> simp [commaToSpace]

theorem commaToSpace_instrText (comma : Bool) (i : Instr) :
    commaToSpace (instrText comma i) = [' '].intercalate (instrTokens i) := by
  have hcomma : ',' ∉ i.mnemonic.toList := (plain_mnemonic i).not_mem (by decide)
  have hops := commaToSpace_intercalate comma i.operandTexts (plain_operandTexts i)
  unfold instrText instrTokens
  revert hops
  cases i.operandTexts with
  | nil => intro _; simpa [commaToSpace] using commaToSpace_append hcomma []
  | cons t ts =>
    intro hops
    rw [commaToSpace_append hcomma, List.intercalate_cons_cons, ← hops]
    simp [commaToSpace]

theorem tokens_instrText (comma : Bool) (i : Instr) : tokens (instrText comma i) = instrTokens i := by
  have hplain := plain_instrTokens i
  rw [tokens, commaToSpace_instrText, List.splitOn_intercalate ' ' (fun t ht => (hplain t ht).not_mem (by decide))
    (List.cons_ne_nil _ _), List.filter_eq_self]
  exact fun t ht => by simp [(hplain t ht).1]

/-- A plain word is no label definition: it has no colon. -/
theorem labelName_of_plain {t : List Char} (h : Plain t) : labelName t = none :=
  if_neg fun hlabel => h.not_mem (c := ':') (by decide) (List.mem_of_getLast? hlabel.1)

/-- The item an instruction's text is read as. -/
def instrItem (i : Instr) : Item := .instruction i.mnemonic.toList i.operandTexts

theorem itemsOfTokens_instrText (comma : Bool) (i : Instr) : itemsOfTokens (tokens (instrText comma i)) = [instrItem i] := by
  rw [tokens_instrText, instrTokens, itemsOfTokens, labelName_of_plain (plain_mnemonic i)]
  rfl

/-! ### From a program's text to its items -/

/-- What stands in an intercalation stands in the separator or in one of the lists. -/
theorem mem_of_mem_intercalate {α : Type} {sep : List α} {ls : List (List α)} {c : α} (h : c ∈ sep.intercalate ls) :
    c ∈ sep ∨ ∃ l ∈ ls, c ∈ l := by
  induction ls with
  | nil => simp at h
  | cons l ls ih =>
    cases ls with
    | nil => exact .inr ⟨l, by simp, by simpa using h⟩
    | cons m ms =>
      rw [List.intercalate_cons_cons, List.mem_append, List.mem_append] at h
      rcases h with (h | h) | h
      · exact .inr ⟨l, by simp, h⟩
      · exact .inl h
      · exact (ih h).imp_right fun ⟨k, hk, hc⟩ => ⟨k, List.mem_cons_of_mem _ hk, hc⟩

theorem intercalate_cons_head {α : Type} (sep : List α) (c : α) (cs : List α) (ls : List (List α)) :
    ∃ ds, sep.intercalate ((c :: cs) :: ls) = c :: ds := by
  cases ls with
  | nil => exact ⟨cs, by simp⟩
  | cons l ls => exact ⟨cs ++ sep ++ sep.intercalate (l :: ls), List.intercalate_cons_cons⟩

/-- The characters of an instruction's text. -/
theorem mem_instrText {comma : Bool} {i : Instr} {c : Char} (h : c ∈ instrText comma i) :
    plainChar c = true ∨ c = ' ' ∨ c = ',' := by
  have hplain : ∀ t ∈ instrTokens i, c ∈ t → plainChar c = true := fun t ht hc =>
    List.all_eq_true.1 (plain_instrTokens i t ht).2 c hc
  obtain ⟨hmnemonic, hops⟩ := List.forall_mem_cons.1 hplain
  unfold instrText at h
  split at h
  · exact .inl (hmnemonic h)
  · next t ts hts =>
    rw [List.mem_append, List.mem_cons] at h
    rcases h with h | h | h
    · exact .inl (hmnemonic h)
    · exact .inr (.inl h)
    · rcases mem_of_mem_intercalate h with hsep | ⟨u, hu, hc⟩
      · cases comma <;> simp at hsep <;> tauto
      · exact .inl (hops u (hts ▸ hu) hc)

theorem semicolon_not_mem_instrText (comma : Bool) (i : Instr) : ';' ∉ instrText comma i := fun h =>
  absurd (mem_instrText h) (by decide)

theorem newline_not_mem_instrText (comma : Bool) (i : Instr) : '\n' ∉ instrText comma i := fun h =>
  absurd (mem_instrText h) (by decide)

theorem instrText_ne_nil (comma : Bool) (i : Instr) : instrText comma i ≠ [] := fun h => by
  have htokens := tokens_instrText comma i
  rw [h] at htokens
  cases htokens

/-- A `;` with another character after it starts no comment. -/
theorem cutComment_semicolon {c : Char} (hc : c ≠ ';') (cs : List Char) :
    cutComment (';' :: c :: cs) = ';' :: cutComment (c :: cs) := by
  conv => lhs; unfold cutComment
  split
  · next heq => cases heq
  · next heq => injection heq with _ heq; injection heq with heq; exact absurd heq hc
  · next heq => cases heq; rfl

/-- The comment after statements separated by `;`, none of them empty, starts after the last one. -/
theorem cutComment_statements (ts : List (List Char)) (h : ∀ t ∈ ts, t ≠ [] ∧ ';' ∉ t) (comment : List Char) :
    cutComment ([';'].intercalate ts ++ ';' :: ';' :: comment) = [';'].intercalate ts := by
  induction ts with
  | nil => rfl
  | cons t ts ih =>
    obtain ⟨⟨-, ht⟩, hts⟩ := List.forall_mem_cons.1 h
    cases ts with
    | nil => simpa [cutComment] using cutComment_append ht (';' :: ';' :: comment)
    | cons u us =>
      obtain ⟨⟨hne, hu⟩, -⟩ := List.forall_mem_cons.1 hts
      obtain ⟨c, cs, rfl⟩ := List.exists_cons_of_ne_nil hne
      have hc : c ≠ ';' := fun hc => hu (hc ▸ List.mem_cons_self)
      obtain ⟨ds, hds⟩ := intercalate_cons_head [';'] c cs us
      have ih := ih hts
      rw [hds, List.cons_append] at ih
      simp only [List.intercalate_cons_cons, List.append_assoc, cutComment_append ht, hds, List.cons_append, List.nil_append,
        cutComment_semicolon hc, ih]

/-- The comment of a line starts at the `;;` after the last instruction, not at a `;` between two. -/
theorem cutComment_lineText (l : List (Bool × Instr) × List Char) :
    cutComment (lineText l) = [';'].intercalate (l.1.map fun p => instrText p.1 p.2) := by
  refine cutComment_statements _ (fun t ht => ?_) l.2
  obtain ⟨p, -, rfl⟩ := List.mem_map.1 ht
  exact ⟨instrText_ne_nil p.1 p.2, semicolon_not_mem_instrText p.1 p.2⟩

/-- The items of a line are its instructions. -/
theorem lineItems_lineText (l : List (Bool × Instr) × List Char) :
    ((cutComment (lineText l)).splitOn ';').flatMap (fun statement => itemsOfTokens (tokens statement)) =
      l.1.map fun p => instrItem p.2 := by
  obtain ⟨ps, comment⟩ := l
  rw [cutComment_lineText]
  cases ps with
  | nil => rfl
  | cons p ps =>
    have htexts : ∀ t ∈ (p :: ps).map fun p => instrText p.1 p.2, ';' ∉ t := fun t ht => by
      obtain ⟨q, -, rfl⟩ := List.mem_map.1 ht
      exact semicolon_not_mem_instrText q.1 q.2
    rw [List.splitOn_intercalate ';' htexts (by simp), List.flatMap_map]
    simp only [itemsOfTokens_instrText]
    exact List.map_eq_flatMap.symm

theorem newline_not_mem_lineText {l : List (Bool × Instr) × List Char} (h : '\n' ∉ l.2) : '\n' ∉ lineText l := by
  intro hmem
  rw [lineText, List.mem_append] at hmem
  rcases hmem with hmem | hmem
  · rcases mem_of_mem_intercalate hmem with hsep | ⟨t, ht, hc⟩
    · exact absurd hsep (by decide)
    · obtain ⟨p, -, rfl⟩ := List.mem_map.1 ht
      exact newline_not_mem_instrText p.1 p.2 hc
  · simp [h] at hmem

/-- The instructions of a program, in order. -/
def programInstrs (program : List (List (Bool × Instr) × List Char)) : List Instr :=
  program.flatMap fun l => l.1.map Prod.snd

/-- The items of a program's text are its instructions. -/
theorem items_programText {program : List (List (Bool × Instr) × List Char)} (h : ∀ l ∈ program, '\n' ∉ l.2) :
    items (programText program) = (programInstrs program).map instrItem := by
  cases program with
  | nil => rfl
  | cons l ls =>
    have hlines : ∀ t ∈ (l :: ls).map lineText, '\n' ∉ t := fun t ht => by
      obtain ⟨k, hk, rfl⟩ := List.mem_map.1 ht
      exact newline_not_mem_lineText (h k hk)
    rw [items, programText, List.splitOn_intercalate '\n' hlines (by simp), List.flatMap_map, programInstrs, List.map_flatMap]
    simp only [lineItems_lineText, List.map_map]
    rfl

/-! ### From items to words -/

theorem rowOf_mnemonic (i : Instr) : rowOf i.mnemonic.toList = some ⟨i.opcode, i.mnemonic, formatOf i⟩ :=
  rowOf_eq_some_iff.2 ⟨instr_row_mem i, .inl rfl⟩

/-- The item of an instruction stands for the instruction's encoding. -/
theorem instrItem_standsFor (table : List (List Char × Int)) (i : Instr) : itemStandsFor table (instrItem i) (encode i) :=
  itemStandsFor_instruction_iff.2 ⟨_, rowOf_mnemonic i, _, rfl, operandTexts_standFor table i⟩

/-- Instructions without labels give an empty label table. -/
theorem labelAddresses_instrItems (a : Int) (is : List Instr) : labelAddresses a [] (is.map instrItem) = .ok [] := by
  induction is generalizing a with
  | nil => rfl
  | cons i is ih => simp [labelAddresses, instrItem, rowOf_mnemonic, ih]

/-- Settles O58: the text's items are the program's instructions, and these stand for their encodings. -/
theorem programTextAssemblesToItsEncodings : Obligations.ProgramTextAssemblesToItsEncodings := by
  intro origin program h
  have hparts : List.Forall₂ (itemStandsFor []) ((programInstrs program).map instrItem)
      ((programInstrs program).map encode) := by
    simp [List.forall₂_map_left_iff, List.forall₂_map_right_iff, List.forall₂_same, instrItem_standsFor]
  have hnodup : (([] : List (List Char × Int)).map Prod.fst).Nodup := List.nodup_nil
  rw [assemble_eq_ok_iff, items_programText h]
  refine ⟨[], labelAddresses_instrItems origin _, hnodup, (itemWords_eq_ok_iff hnodup).2 ⟨_, hparts, ?_⟩⟩
  rw [← List.flatMap_def, programInstrs, List.flatMap_assoc]
  simp only [List.flatMap_map]

end Sys2Proof.Assembler

/-! ## Which instructions write memory (spec 20_memory.md R33) -/

namespace Sys2Proof.Machine

/-- Of all instructions only PUSH and CALL have memory in their frame. -/
theorem exec_mem {i : Instr} {s t : State} (h : exec i s = .next t) (hpush : ∀ r, i ≠ .push r) (hcall : ∀ a, i ≠ .call a) :
    t.mem = s.mem := by
  cases exec_frame h with
  | push r => exact absurd rfl (hpush r)
  | call a => exact absurd rfl (hcall a)
  | _ => rfl

/-- States with the same memory have the same cells. -/
theorem State.cell_eq_of_mem_eq {s t : State} (h : t.mem = s.mem) (a : Int) : t.cell a = s.cell a := by
  rw [State.cell, State.cell, h]

/-- Settles O20: the memory is that of before, and with it every cell. -/
theorem memoryIsWrittenByPushAndCallOnly : Obligations.MemoryIsWrittenByPushAndCallOnly := by
  intro i s t h hpush hcall
  have hmem : t.mem = s.mem := exec_mem h hpush hcall
  exact ⟨hmem, State.cell_eq_of_mem_eq hmem⟩

end Sys2Proof.Machine

/-! ## Reading a range of cells (spec 20_memory.md R32, 60_exceptions.md R128) -/

namespace Sys2Proof.Machine

theorem State.getElem_cellsFrom (s : State) (a : Int) (n : Nat) {j : Nat} (h : j < (s.cellsFrom a n).length) :
    (s.cellsFrom a n)[j] = s.cell (a + j) := by
  simp [State.cellsFrom]

/-- A range inside memory is answered with the words of its cells. -/
theorem hostRead_cells_inside {s : State} {a : Int} {k : Nat} (h0 : 0 ≤ a) (h1 : a + k ≤ s.cfg.memSize) :
    hostRead (.cells a k) s = some (.words (s.cellsFrom a k)) := if_pos ⟨h0, h1⟩

/-- A range that leaves memory at either end is refused. -/
theorem hostRead_cells_outside {s : State} {a : Int} {k : Nat} (h : a < 0 ∨ (s.cfg.memSize : Int) < a + k) :
    hostRead (.cells a k) s = none := if_neg (by omega)

/-- Settles O52: the words answered are those of `cellsFrom`, in every run state. -/
theorem hostReadsAnyCellRange : Obligations.HostReadsAnyCellRange := fun s a k =>
  ⟨fun h0 h1 => ⟨s.cellsFrom a k, hostRead_cells_inside h0 h1, s.length_cellsFrom a k, fun _ => s.getElem_cellsFrom a k⟩,
    hostRead_cells_outside⟩

end Sys2Proof.Machine

/-! ## The decoder and the encoder (spec 30_encoding.md R46, R51 to R55, R59) -/

namespace Sys2Proof

/-- Words after the operand words are left as they are. -/
theorem decodeOperands_append {f : Form} {ws rest : List Int} {i : Instr} (h : decodeOperands f ws = .ok (i, rest))
    (more : List Int) : decodeOperands f (ws ++ more) = .ok (i, rest ++ more) := by
  have hinv := decodeOperands_inv h
  cases f with
  | f0 j => obtain ⟨rfl, rfl⟩ := hinv; rfl
  | f1r mk | f1t mk | f1c mk => obtain ⟨x, rfl, rfl⟩ := hinv; simp [decodeOperands]
  | f2rr mk | f2ri mk => obtain ⟨x, y, rfl, rfl⟩ := hinv; simp [decodeOperands]

theorem decode_cons_of_form {op : Int} {f : Form} (h : opcodeForm op = some f) (ws : List Int) :
    decode (op :: ws) = decodeOperands f ws := by
  simp only [decode, h]

theorem decode_cons_of_no_form {op : Int} (h : opcodeForm op = none) (ws : List Int) :
    decode (op :: ws) = .error (.invalidOpcode op) := by
  simp only [decode, h]

/-- Settles O1: the opcode finds the form that reads the operand words back, and the decoder leaves what follows. -/
theorem decodeReadsBackWhatEncodeWrites : Obligations.DecodeReadsBackWhatEncodeWrites := by
  intro i rest
  obtain ⟨f, hform, -, hdec⟩ := opcodeForm_opcode i
  rw [encode, List.cons_append, decode_cons_of_form hform]
  exact decodeOperands_append hdec rest

/-- Settles O2: an opcode word with a form, and the operand words that form reads. -/
theorem decodeAcceptsOnlyEncodings : Obligations.DecodeAcceptsOnlyEncodings := by
  intro ws i rest h
  cases ws with
  | nil => cases h
  | cons op ws =>
    cases hform : opcodeForm op with
    | none => rw [decode_cons_of_no_form hform] at h; cases h
    | some f => rw [decode_cons_of_form hform] at h; exact decodeOperands_encode hform h

/-- Settles O5: by evaluation. -/
theorem sourceExamplesHaveTheirWords : Obligations.SourceExamplesHaveTheirWords :=
  ⟨⟨rfl, rfl⟩, ⟨rfl, rfl⟩, ⟨rfl, rfl⟩, ⟨rfl, rfl⟩, ⟨rfl, rfl⟩, ⟨rfl, rfl⟩, ⟨rfl, rfl⟩, ⟨rfl, rfl⟩, ⟨rfl, rfl⟩, ⟨rfl, rfl⟩⟩

/-- No opcode word is missing between 1 and 24, and there is no other (R53). -/
theorem opcodeForm_eq_none_iff {op : Int} : opcodeForm op = none ↔ op < 1 ∨ 24 < op := by
  constructor
  · intro h
    by_contra hrange
    obtain ⟨h1, h24⟩ : 1 ≤ op ∧ op ≤ 24 := by omega
    interval_cases op <;> cases h
  · intro hrange
    cases hform : opcodeForm op with
    | none => rfl
    | some f => have := opcodeForm_range hform; omega

/-- The operand decoder never finds fault with an opcode word: its errors are a missing word and those of its operands. -/
theorem decodeOperands_ne_invalidOpcode (f : Form) (ws : List Int) (op : Int) :
    decodeOperands f ws ≠ .error (.invalidOpcode op) := by
  have hreg (w : Int) : regOfWord w ≠ .error (.invalidOpcode op) := fun h => by cases (regOfWord_eq_error h).1
  have hint (w : Int) : intCodeOfWord w ≠ .error (.invalidOpcode op) := fun h => by cases (intCodeOfWord_eq_error h).1
  intro h
  cases f <;> simp only [decodeOperands] at h
  case f0 => cases h
  case f1t => split at h <;> cases h
  case f1r =>
    split at h
    · cases h
    · split at h <;> cases h
      next hr => exact hreg _ hr
  case f1c =>
    split at h
    · cases h
    · split at h <;> cases h
      next hk => exact hint _ hk
  case f2ri =>
    split at h
    · cases h
    · cases h
    · split at h <;> cases h
      next hr => exact hreg _ hr
  case f2rr =>
    split at h
    · cases h
    · cases h
    · split at h
      · next hr => cases h; exact hreg _ hr
      · split at h <;> cases h
        next hq => exact hreg _ hq

/-- The decoder finds fault with an opcode word exactly when it has no form. -/
theorem decode_eq_invalidOpcode_iff {op : Int} {ws : List Int} :
    decode (op :: ws) = .error (.invalidOpcode op) ↔ opcodeForm op = none := by
  refine ⟨fun h => ?_, fun h => decode_cons_of_no_form h ws⟩
  cases hform : opcodeForm op with
  | none => rfl
  | some f => exact absurd (decode_cons_of_form hform ws ▸ h) (decodeOperands_ne_invalidOpcode f ws op)

/-- An interrupt code outside 0 to 2 is BadInterrupt. -/
theorem intCodeOfWord_outside {w : Int} (h : w < 0 ∨ 2 < w) : intCodeOfWord w = .error (.badInterrupt w) := by
  cases hw : intCodeOfWord w with
  | ok c =>
    obtain rfl := intCodeOfWord_eq_ok hw
    cases c <;> simp [IntCode.toWord] at h
  | error e => rw [(intCodeOfWord_eq_error hw).1]

/-- A first operand word that names no register, in the formats that begin with a register operand. -/
theorem decodeOperands_firstBadRegister {f : Form} (hf : f.format ∈ [Format.f1r, .f2ri, .f2rr]) {w : Int} {ws : List Int}
    (hlen : ws.length + 1 = f.format.arity) (hw : w < 0 ∨ 10 < w) : decodeOperands f (w :: ws) = .error (.badRegister w) := by
  cases f with
  | f1r mk => simp only [decodeOperands, regOfWord_outside hw]
  | f2rr mk | f2ri mk =>
    obtain ⟨v, rfl⟩ := List.length_eq_one_iff.1 (Nat.succ.inj hlen)
    simp only [decodeOperands, regOfWord_outside hw]
  | f0 i | f1t mk | f1c mk => simp [Form.format] at hf

/-- A second operand word that names no register, after one that does. -/
theorem decodeOperands_secondBadRegister {f : Form} (hf : f.format = .f2rr) {w v : Int} (hw : 0 ≤ w ∧ w ≤ 10)
    (hv : v < 0 ∨ 10 < v) : decodeOperands f [w, v] = .error (.badRegister v) := by
  obtain ⟨r, rfl⟩ := exists_toWord_eq hw.1 hw.2
  cases f with
  | f2rr mk => simp only [decodeOperands, regOfWord_toWord, regOfWord_outside hv]
  | _ => cases hf

theorem decodeOperands_badInterrupt {f : Form} (hf : f.format = .f1c) {w : Int} (hw : w < 0 ∨ 2 < w) :
    decodeOperands f [w] = .error (.badInterrupt w) := by
  cases f with
  | f1c mk => simp only [decodeOperands, intCodeOfWord_outside hw]
  | _ => cases hf

end Sys2Proof

/-! ## Faults of fetch and decoding (spec 30_encoding.md R48, R53; 40_dispatch.md R62 to R64; 45_interrupt.md R108) -/

namespace Sys2Proof.Machine

/-- A fault of fetch or decoding changes the run state only. -/
theorem step_of_fetchInstr_error {s : State} {e : Raise} (hrun : s.run = .running) (h : s.fetchInstr = .error e) :
    step s = .next { s with run := .faulted ⟨e.kind, e.info, s.pc⟩ } := by
  simp only [step, hrun, h, State.takeFault]

theorem fetchInstr_of_fetch_error {s : State} {e : Raise} (h : s.fetch = .error e) : s.fetchInstr = .error e := by
  simp only [State.fetchInstr, h]

theorem fetchInstr_invalidOpcode {s : State} (haddr : s.isAddress s.pc) (hform : opcodeForm (s.cell s.pc) = none) :
    s.fetchInstr = .error ⟨.invalidOpcode, s.cell s.pc⟩ := by
  simp only [State.fetchInstr, fetch_ok haddr, hform]

/-- An operand word past the end of memory, whatever the operand words before it are. -/
theorem fetchInstr_operandOutside {s : State} {f : Form} (haddr : s.isAddress s.pc) (hform : opcodeForm (s.cell s.pc) = some f)
    (hend : (s.cfg.memSize : Int) ≤ s.pc + f.format.arity) : s.fetchInstr = .error ⟨.endOfMemory, s.cfg.memSize⟩ := by
  obtain ⟨h0, hN⟩ := haddr
  have hmany := fetchMany_endOfMemory (s := s.setPc (s.pc + 1)) f.format.arity (by simp; omega) (by simp; omega)
    (by simp; omega)
  simp only [State.fetchInstr, fetch_ok ⟨h0, hN⟩, hform, hmany, State.setPc_cfg]

/-- Operand words inside memory that do not decode. -/
theorem fetchInstr_undecodable {s : State} {f : Form} {e : DecodeError} (h0 : 0 ≤ s.pc)
    (hfit : s.pc + f.format.arity < s.cfg.memSize) (hform : opcodeForm (s.cell s.pc) = some f)
    (hdec : decodeOperands f (s.cellsFrom (s.pc + 1) f.format.arity) = .error e) :
    s.fetchInstr = .error (raiseOfDecodeError (s.pc + 1 + f.format.arity) e) := by
  have hmany : (s.setPc (s.pc + 1)).fetchMany f.format.arity =
      .ok (s.cellsFrom (s.pc + 1) f.format.arity, (s.setPc (s.pc + 1)).setPc (s.pc + 1 + f.format.arity)) :=
    fetchMany_ok f.format.arity (by simp; omega) (by simp; omega)
  simp only [State.fetchInstr, fetch_ok (s := s) ⟨h0, by omega⟩, hform, hmany, hdec, State.setPc_pc]

/-- Settles O3: an opcode word has no form exactly when it is outside 1 to 24. -/
theorem everyOtherOpcodeIsInvalid : Obligations.EveryOtherOpcodeIsInvalid :=
  ⟨fun _ _ => decode_eq_invalidOpcode_iff.trans opcodeForm_eq_none_iff, fun _ hrun haddr hrange =>
    step_of_fetchInstr_error hrun (fetchInstr_invalidOpcode haddr (opcodeForm_eq_none_iff.2 hrange))⟩

/-- Settles O8: the opcode fetch is the first, and all operand fetches come before the first decoding. -/
theorem fetchOutsideMemoryFaults : Obligations.FetchOutsideMemoryFaults := fun _ hrun =>
  ⟨fun hend => step_of_fetchInstr_error hrun (fetchInstr_of_fetch_error (fetch_endOfMemory hend)),
    fun hneg => step_of_fetchInstr_error hrun (fetchInstr_of_fetch_error (fetch_badAddress hneg)),
    fun _ haddr hform hend => step_of_fetchInstr_error hrun (fetchInstr_operandOutside haddr hform hend)⟩

@[simp] theorem State.cellsFrom_zero (s : State) (a : Int) : s.cellsFrom a 0 = [] := rfl

/-- Settles O9: the operand words stand in the cells after `pc` and are decoded in their order. -/
theorem undecodableOperandsFault : Obligations.UndecodableOperandsFault := by
  intro s f hrun h0 hfit hform
  have hfault (e : DecodeError) (hdec : decodeOperands f (s.cellsFrom (s.pc + 1) f.format.arity) = .error e) :=
    step_of_fetchInstr_error hrun (fetchInstr_undecodable h0 hfit hform hdec)
  refine ⟨fun hf hbad => hfault (.badRegister _) ?_, fun hf hgood hbad => hfault (.badRegister _) ?_,
    fun hf hbad => hfault (.badInterrupt _) ?_⟩
  · obtain ⟨n, hn⟩ : ∃ n, f.format.arity = n + 1 := by
      simp only [List.mem_cons, List.not_mem_nil, or_false] at hf
      rcases hf with hf | hf | hf <;> exact ⟨_, congrArg Format.arity hf⟩
    rw [hn, State.cellsFrom_succ]
    exact decodeOperands_firstBadRegister hf (by rw [State.length_cellsFrom, hn]) hbad
  · have hcells : s.cellsFrom (s.pc + 1) Format.f2rr.arity = [s.cell (s.pc + 1), s.cell (s.pc + 2)] := by
      simp [Format.arity, Format.operands, State.cellsFrom_succ, add_assoc]
    rw [hf, hcells]
    exact decodeOperands_secondBadRegister hf hgood hbad
  · have hcells : s.cellsFrom (s.pc + 1) Format.f1c.arity = [s.cell (s.pc + 1)] := by
      simp [Format.arity, Format.operands, State.cellsFrom_succ]
    rw [hf, hcells]
    exact decodeOperands_badInterrupt hf hbad

end Sys2Proof.Machine

/-! ## The opcode map by name (spec 30_encoding.md R52, 60_exceptions.md R127) -/

namespace Sys2Proof

/-- An instruction has the opcode word and the operand words of its format (R45). -/
theorem formatOf_arity (i : Instr) : (Assembler.formatOf i).arity + 1 = i.length := by cases i <;> rfl

/-- No opcode stands twice, so a row is found by its opcode. -/
theorem find_opcode_of_mem : ∀ row ∈ opcodeMap, opcodeMap.find? (fun r => r.opcode == row.opcode) = some row := by decide

/-- An opcode word that stands in no row has no form. -/
theorem opcodeForm_eq_none_of_not_mem {op : Int} (h : ∀ row ∈ opcodeMap, row.opcode ≠ op) : opcodeForm op = none := by
  rw [opcodeForm_eq_none_iff]
  simp only [opcodeMap, List.forall_mem_cons] at h
  omega

/-- The 24 instructions, with given operands. -/
def instrsOver (r q : Reg) (v : Int) (c : IntCode) : List Instr :=
  [.brk, .dbg, .load r v, .mov r q, .push r, .pop r, .add r q, .addi r v, .sub r q, .subi r v, .mul r q, .muli r v, .inc r,
    .dec r, .cmp r q, .clf, .jmp v, .jz v, .jnz v, .je v, .jne v, .call v, .ret, .int c]

end Sys2Proof

namespace Sys2Proof.Machine

/-- The debug surface names the instruction at `pc` by its mnemonic. -/
theorem hostMnemonic_of_codeAt {s : State} {i : Instr} (h : s.codeAt i) :
    hostMnemonic s = some i.mnemonic := by
  obtain ⟨h0, h1, hwords⟩ := h
  change s.cellsFrom s.pc i.length = i.opcode :: i.operandWords at hwords
  rw [← formatOf_arity] at h1 hwords
  rw [State.cellsFrom_succ] at hwords
  obtain ⟨hop, -⟩ := List.cons.inj hwords
  have haddr : s.isAddress s.pc := ⟨h0, by push_cast at h1; omega⟩
  rw [hostMnemonic, if_pos haddr, hop, find_opcode_of_mem _ (Assembler.instr_row_mem i), Option.map_some]

/-- Settles O53: the row is that of the instruction's opcode, mnemonic and format. -/
theorem debugSurfaceNamesTheInstruction : Obligations.DebugSurfaceNamesTheInstruction := fun _ i h =>
  ⟨_, Assembler.instr_row_mem i, rfl, formatOf_arity i, hostMnemonic_of_codeAt h⟩

/-- Settles O56: the table's rows are the mnemonics, formats and encodings of the 24 instructions. -/
theorem opcodeMapIsTheTableOfTheSpec : Obligations.OpcodeMapIsTheTableOfTheSpec := by
  refine ⟨fun r q v c i m f ws h => ?_, by decide, fun op ws h => decode_cons_of_no_form (opcodeForm_eq_none_of_not_mem h) ws⟩
  change (i, m, f, ws) ∈ (instrsOver r q v c).map fun i => (i, i.mnemonic, Assembler.formatOf i, encode i) at h
  obtain ⟨j, -, hj⟩ := List.mem_map.1 h
  cases hj
  exact ⟨rfl, decodeReadsBackWhatEncodeWrites i, rfl, Assembler.instr_row_mem i, rfl, fun _ => hostMnemonic_of_codeAt⟩

end Sys2Proof.Machine

/-! ## Numbers and labels in assembly text (spec 30_encoding.md R57) -/

namespace Sys2Proof.Assembler

/-- Everything a number in assembly text can be: a natural number with a minus sign, a plus sign or no sign. -/
theorem integerValue_eq_some_iff {text : List Char} {v : Int} :
    integerValue text = some v ↔
      ∃ (ds : List Char) (n : Nat), naturalValue ds = some n ∧
        ((text = ds ∨ text = '+' :: ds) ∧ v = n ∨ text = '-' :: ds ∧ v = -(n : Int)) := by
  constructor
  · intro h
    unfold integerValue at h
    split at h <;> obtain ⟨n, hn, rfl⟩ := Option.map_eq_some_iff.1 h
    · exact ⟨_, n, hn, .inr ⟨rfl, rfl⟩⟩
    · exact ⟨_, n, hn, .inl ⟨.inr rfl, rfl⟩⟩
    · exact ⟨_, n, hn, .inl ⟨.inl rfl, rfl⟩⟩
  · rintro ⟨ds, n, hn, ⟨rfl | rfl, rfl⟩ | ⟨rfl, rfl⟩⟩
    · exact integerValue_of_naturalValue hn
    · simp only [integerValue, hn, Option.map_some]
    · simp only [integerValue, hn, Option.map_some]

/-- Settles O57: the unsigned part of a number is digits, at least one. -/
theorem numbersAreSignedDecimals : Obligations.NumbersAreSignedDecimals := by
  refine ⟨integerValue_decimalText, fun text v => integerValue_eq_some_iff.trans ⟨?_, ?_⟩⟩
  · rintro ⟨ds, n, hn, h⟩
    obtain ⟨hne, hdigits, rfl⟩ := naturalValue_eq_some_iff.1 hn
    exact ⟨ds, hne, hdigits, h⟩
  · rintro ⟨ds, hne, hdigits, h⟩
    exact ⟨ds, _, naturalValue_eq_some_iff.2 ⟨hne, hdigits, rfl⟩, h⟩

/-- The label table of a text that begins with an instruction: the waiting labels stand for its address, the others come after it. -/
theorem labelAddresses_instruction_inv {a : Int} {waiting : List (List Char)} {m : List Char} {ops : List (List Char)}
    {rest : List Item} {table : List (List Char × Int)}
    (h : labelAddresses a waiting (.instruction m ops :: rest) = .ok table) :
    ∃ row ls, rowOf m = some row ∧ labelAddresses (a + 1 + row.format.arity) [] rest = .ok ls ∧
      table = waiting.map (fun n => (n, a)) ++ ls := by
  simp only [labelAddresses] at h
  split at h
  · cases h
  · next row hrow =>
    split at h <;> cases h
    next ls hls => exact ⟨row, ls, hrow, hls, rfl⟩

/-- The words of an instruction before the other items are as many as its row says. -/
theorem itemWords_instruction_inv {labels : List (List Char × Int)} {m : List Char} {ops : List (List Char)}
    {rest : List Item} {ws : List Int} (h : itemWords labels (.instruction m ops :: rest) = .ok ws) :
    ∃ row vs, rowOf m = some row ∧ itemWords labels rest = .ok vs ∧ ws.length = 1 + row.format.arity + vs.length := by
  simp only [itemWords] at h
  split at h
  · cases h
  · next row hrow =>
    split at h
    · cases h
    · next os hos =>
      split at h <;> cases h
      next vs hvs =>
        refine ⟨row, vs, hrow, hvs, ?_⟩
        rw [List.length_cons, List.length_append, operandWords_length hos, Format.arity]
        omega

/-- A waiting label stands for the address of the next instruction. -/
theorem mem_table_of_waiting {a : Int} {waiting : List (List Char)} {its : List Item} {n : List Char}
    {table : List (List Char × Int)} (hn : n ∈ waiting) (h : labelAddresses a waiting its = .ok table) : (n, a) ∈ table := by
  induction its generalizing waiting with
  | nil =>
    cases waiting with
    | nil => cases hn
    | cons m waiting => cases h
  | cons it its ih =>
    cases it with
    | label m => exact ih (List.mem_append_left _ hn) h
    | instruction m ops =>
      obtain ⟨row, ls, -, -, rfl⟩ := labelAddresses_instruction_inv h
      exact List.mem_append_left _ (List.mem_map_of_mem hn)

/-- A label's entry is the address after the words of the items before it. -/
theorem mem_table_of_label {a : Int} {waiting : List (List Char)} {before after : List Item} {n : List Char}
    {table labels : List (List Char × Int)} {ws : List Int}
    (htable : labelAddresses a waiting (before ++ .label n :: after) = .ok table) (hws : itemWords labels before = .ok ws) :
    (n, a + ws.length) ∈ table := by
  induction before generalizing a waiting table ws with
  | nil =>
    cases hws
    rw [List.length_nil, Nat.cast_zero, add_zero]
    exact mem_table_of_waiting (List.mem_append_right _ (List.mem_singleton_self n)) htable
  | cons it before ih =>
    cases it with
    | label m => exact ih htable hws
    | instruction m ops =>
      obtain ⟨row, ls, hrow, hls, rfl⟩ := labelAddresses_instruction_inv htable
      obtain ⟨row', vs, hrow', hvs, hlen⟩ := itemWords_instruction_inv hws
      obtain rfl : row = row' := Option.some.inj (hrow.symm.trans hrow')
      have haddr : a + ws.length = a + 1 + row.format.arity + vs.length := by omega
      rw [haddr]
      exact List.mem_append_right _ (ih hls hvs)

/-- Settles O55: the label's entry is in the table, and where no label stands twice the entry is what its name stands for. -/
theorem labelsStandForTheAddressOfTheirInstruction : Obligations.LabelsStandForTheAddressOfTheirInstruction := by
  intro a before after n table labels ws htable hws
  have hmem := mem_table_of_label htable hws
  exact ⟨hmem, fun hnodup hnan => (operandWord_eq_ok_iff hnodup).2 (.inr ⟨hnan, hmem⟩)⟩

end Sys2Proof.Assembler

/-! ## Jumps (spec 44_control_transfer.md R94 to R98) -/

namespace Sys2Proof.Machine

theorem jumpIf_eq {s : State} {c : Bool} {p : Prop} [Decidable p] (h : c = true ↔ p) (a : Int) :
    s.jumpIf c a = { s with pc := if p then a else s.pc + 2 } := by
  simp only [State.jumpIf, h]
  split <;> rfl

/-- Settles O35: each jump is `jumpIf` of its condition. -/
theorem jumpsSetOnlyThePc : Obligations.JumpsSetOnlyThePc := fun s a =>
  ⟨rfl, congrArg _ (jumpIf_eq (c := s.condZ) Iff.rfl a), congrArg _ (jumpIf_eq (c := s.condNz) (by simp [State.condNz]) a),
    congrArg _ (jumpIf_eq (c := s.condE) Iff.rfl a), congrArg _ (jumpIf_eq (c := s.condNe) (by simp [State.condNe]) a)⟩

end Sys2Proof.Machine

/-! ## Where PUSH, POP, CALL and RET trap (spec 41_stack_frame.md R71 to R75, 42_data_movement.md, 44_control_transfer.md) -/

namespace Sys2Proof.Machine

section
variable {s : State} {e : Raise}

/-- PUSH takes the fault of its push. -/
theorem exec_push_fault {r : Reg} (h : (s.advance 2).push (s.reg r) = .error e) :
    exec (.push r) s = .next (s.takeFault s.pc e) := by
  change commit s ((s.advance 2).push (s.reg r)) = _
  rw [h]
  rfl

/-- POP takes the fault of its pop. -/
theorem exec_pop_fault (r : Reg) (h : (s.advance 2).pop = .error e) : exec (.pop r) s = .next (s.takeFault s.pc e) := by
  change commit s _ = _
  rw [h]
  rfl

/-- CALL takes the fault of `enter()`. -/
theorem exec_call_fault (a : Int) (h : (s.advance 2).enter = .error e) : exec (.call a) s = .next (s.takeFault s.pc e) := by
  change commit s _ = _
  rw [h]
  rfl

/-- RET with no CALL outstanding is unbalanced. -/
theorem exec_ret_unbalanced (hcd : s.cd = 0) : exec .ret s = .next (s.takeFault s.pc ⟨.unbalancedReturn, 0⟩) := by
  change commit s _ = _
  rw [if_pos hcd]
  rfl

/-- RET with a CALL outstanding takes the fault of `leave()`. -/
theorem exec_ret_fault (hcd : s.cd ≠ 0) (h : (s.advance 1).leave = .error e) : exec .ret s = .next (s.takeFault s.pc e) := by
  change commit s _ = _
  rw [if_neg hcd, h]
  rfl

end

/-- Settles O29: PUSH traps where a push does, POP where a pop does. -/
theorem pushAndPopTrapOutsideMemory : Obligations.PushAndPopTrapOutsideMemory := fun s r =>
  ⟨fun hover => exec_push_fault (push_overflow (s := s.advance 2) hover),
    fun hunder => exec_push_fault (push_underflow (s := s.advance 2) hunder),
    fun hover => exec_pop_fault r (pop_overflow (s := s.advance 2) (by rw [State.reg_advance, State.advance_cfg]; omega)),
    fun hunder => exec_pop_fault r (pop_underflow (s := s.advance 2) (by rw [State.reg_advance]; omega))⟩

/-- Settles O37: CALL traps where `enter()` does, at the first of its ten words that does not fit. -/
theorem callTrapsWithoutRoom : Obligations.CallTrapsWithoutRoom := by
  refine fun s a => ⟨fun hunder => exec_call_fault a (enter_underflow (s := s.advance 2) hunder), fun h0 hover => ?_⟩
  rw [← max_def]
  exact exec_call_fault a (enter_overflow (s := s.advance 2) h0 hover)

/-- Settles O39: with a CALL outstanding RET traps where `leave()` does: at FP past memory, below the frame and the count, at a
negative count, below the arguments counted. -/
theorem retTraps : Obligations.RetTraps := by
  refine fun s => ⟨exec_ret_unbalanced,
    fun hcd hover => exec_ret_fault hcd (leave_overflow (s := s.advance 1) hover),
    fun hcd hfit hfew => ?_,
    fun hcd hfit hframe hneg => exec_ret_fault hcd (leave_badArgCount (s := s.advance 1) hframe hfit hneg),
    fun hcd hfit hframe hmany => ?_⟩
  · rw [← min_def_lt]
    exact exec_ret_fault hcd (leave_underflow (s := s.advance 1) hfit (.inl hfew))
  · have hcount : 0 ≤ s.savedCount := by unfold State.savedCount; omega
    have hfault := exec_ret_fault hcd (leave_underflow (s := s.advance 1) hfit (.inr ⟨hcount, hmany⟩))
    rwa [State.reg_advance, min_eq_right (by omega)] at hfault

end Sys2Proof.Machine

/-! ## Machine control (spec 40_dispatch.md R61, R68, R69; 45_interrupt.md R106) -/

namespace Sys2Proof.Machine

/-- Settles O24. -/
theorem brkHaltsTheRun : Obligations.BrkHaltsTheRun := ⟨rfl, fun _ => rfl⟩

theorem hostAct_resume_ok {s : State} (hrun : s.run = .suspended .debug) : hostAct .resume s = some (s.setRun .running) :=
  if_pos hrun

theorem hostAct_terminate_ok {s : State} (hrun : s.run = .suspended .debug) :
    hostAct .terminate s = some (s.setRun (.halted .debugTerminate)) := if_pos hrun

/-- Settles O25: Continue and Terminate replace the run state, which is Suspended(Debug) after DBG. -/
theorem dbgSuspendsUntilContinueOrTerminate : Obligations.DbgSuspendsUntilContinueOrTerminate := fun _ =>
  ⟨_, rfl, rfl, hostAct_resume_ok rfl, hostAct_terminate_ok rfl⟩

/-- Settles O45. -/
theorem readLineSuspendsForInput : Obligations.ReadLineSuspendsForInput := fun _ => rfl

/-- Settles O17: only these three instructions can lead to such a run state, and none of them can fault. -/
theorem onlyBrkHaltsAndOnlyDbgAndReadLineSuspend : Obligations.OnlyBrkHaltsAndOnlyDbgAndReadLineSuspend := by
  intro i s t hrun h
  have hmove := exec_run h
  rw [hrun] at hmove
  refine ⟨⟨?_, ?_⟩, ⟨?_, ?_⟩, ⟨?_, ?_⟩⟩
  · rintro ⟨c, hc⟩
    have hbrk : i = .brk ∧ c = .brk := by simpa [hc] using hmove
    exact hbrk.1
  · rintro rfl; cases h; exact ⟨.brk, rfl⟩
  · intro hdebug
    simpa [hdebug] using hmove
  · rintro rfl; cases h; rfl
  · rintro ⟨p, hp⟩
    have hline : i = .int .readLine ∧ p = s.pc := by simpa [hp] using hmove
    exact hline.1
  · rintro rfl; cases h; exact ⟨s.pc, rfl⟩

end Sys2Proof.Machine

/-! ## The run states in which the host acts (spec 40_dispatch.md R66, R70; 60_exceptions.md R109, R123) -/

namespace Sys2Proof.Machine

section
variable {s : State}

/-- A step of a core that is not Running is the host's turn. -/
theorem step_hostTurn (hrun : s.run ≠ .running) : step s = .next s.hostTurn := by
  unfold step
  split
  · next hr => exact absurd hr hrun
  all_goals rfl

/-- A turn of the host with no operation pending changes nothing. -/
theorem hostTurn_of_inbox_nil (hin : s.inbox = []) : s.hostTurn = s := by
  simp only [State.hostTurn, hin]

/-- A refused operation is taken from the queue and answered, and nothing else changes. -/
theorem hostTurn_of_refused {op : HostOp} {rest : List HostOp} (hin : s.inbox = op :: rest) (h : hostAct op s = none) :
    s.hostTurn = { s with inbox := rest, replies := s.replies ++ [.refused] } := by
  simp only [State.hostTurn, hin, h]

/-- A core that waits is not Running. -/
theorem run_ne_running_of_waits (h : s.waits = true) : s.run ≠ .running := fun hrun => by simp [State.waits, hrun] at h

/-- An ended run neither runs nor waits. -/
theorem not_active_of_ended (h : s.ended = true) : s.run ≠ .running ∧ s.waits = false := by
  cases hrun : s.run with
  | halted | faulted => exact ⟨by simp, by simp only [State.waits, hrun]⟩
  | ready | running | suspended => simp [State.ended, hrun] at h

end

/-- Settles O48: each operation has its run state among the cases of an accepted one. -/
theorem hostOperationsNeedTheirRunState : Obligations.HostOperationsNeedTheirRunState := by
  refine ⟨fun op s t h => ?_, fun op rest s hrun hin h => by rw [step_hostTurn hrun, hostTurn_of_refused hin h]⟩
  cases hostAct_cases h with
  | load _ _ _ hrun | seed _ _ _ hrun | setEntry _ hrun | run hrun | resume hrun | terminate hrun => exact hrun
  | deliverLine fpc _ hrun => exact ⟨fpc, hrun⟩

/-- Only a core that waits accepts an operation. -/
theorem waits_of_hostAct {op : HostOp} {s t : State} (h : hostAct op s = some t) : s.waits = true := by
  have hstate := hostOperationsNeedTheirRunState.1 op s t h
  cases op with
  | deliverLine => obtain ⟨p, hrun⟩ := hstate; simp only [State.waits, hrun]
  | _ => simp only [State.waits, hstate]

/-- An ended run refuses every operation. -/
theorem hostAct_eq_none_of_ended {s : State} (h : s.ended = true) (op : HostOp) : hostAct op s = none := by
  refine Option.eq_none_iff_forall_ne_some.2 fun t hact => ?_
  have hwaits := waits_of_hostAct hact
  rw [(not_active_of_ended h).2] at hwaits
  cases hwaits

/-- Settles O14: a step of an ended run is the host's turn, in which a pending operation is refused. -/
theorem endedRunIsFrozen : Obligations.EndedRunIsFrozen := by
  intro s hended
  rw [step_hostTurn (not_active_of_ended hended).1]
  cases hin : s.inbox with
  | nil => rw [hostTurn_of_inbox_nil hin, List.tail_nil, if_pos rfl, List.append_nil, ← hin]
  | cons op rest =>
    rw [hostTurn_of_refused hin (hostAct_eq_none_of_ended hended op), List.tail_cons, if_neg (List.cons_ne_nil op rest)]

/-- Settles O15. -/
theorem waitingCoreStaysAsItIs : Obligations.WaitingCoreStaysAsItIs := fun s hwaits hin => by
  rw [step_hostTurn (run_ne_running_of_waits hwaits), hostTurn_of_inbox_nil hin]

/-- Settles O50. -/
theorem runAndSetEntryStartTheCore : Obligations.RunAndSetEntryStartTheCore := fun _ _ hrun =>
  ⟨hostAct_run_ok hrun, hostAct_setEntry_ok hrun⟩

/-! ### No step stops the model -/

theorem exists_commit (s : State) (r : Except Raise State) : ∃ t, commit s r = .next t := by
  cases r <;> exact ⟨_, rfl⟩

/-- Every instruction answers a next state: the rules that can raise a fault are committed, and `commit` takes the fault. -/
theorem exists_exec (i : Instr) (s : State) : ∃ t, exec i s = .next t := by
  cases i with
  | push | pop | call | ret => exact exists_commit s _
  | int c => cases c with
    | putChar | putString => exact exists_commit s _
    | readLine => exact ⟨_, rfl⟩
  | _ => exact ⟨_, rfl⟩

/-- Settles O10: a Running core executes or takes the fault of its fetch, every other core has the host's turn. -/
theorem everyStepAnswersANextState : Obligations.EveryStepAnswersANextState := by
  intro s
  by_cases hrun : s.run = .running
  · cases hi : s.fetchInstr with
    | ok i =>
      obtain ⟨t, ht⟩ := exists_exec i s
      exact ⟨t, by simp only [step, hrun, hi, ht]⟩
    | error e => exact ⟨_, step_of_fetchInstr_error hrun hi⟩
  · exact ⟨_, step_hostTurn hrun⟩

end Sys2Proof.Machine

/-! ## The debug surface's stack window and frame view (spec 41_stack_frame.md R76, 60_exceptions.md R127) -/

namespace Sys2Proof.Machine

theorem State.clampAddress_range (s : State) (a : Int) : 0 ≤ s.clampAddress a ∧ s.clampAddress a ≤ s.cfg.memSize := by
  unfold State.clampAddress
  omega

theorem State.clampAddress_mono (s : State) {a b : Int} (h : a ≤ b) : s.clampAddress a ≤ s.clampAddress b := by
  unfold State.clampAddress
  omega

/-- Clamping both ends of a range cuts it down to the cells of memory, wherever its ends lie. -/
theorem State.mem_clampAddress_range_iff (s : State) (a e b : Int) :
    (s.clampAddress a ≤ b ∧ b < s.clampAddress e) ↔ s.isAddress b ∧ a ≤ b ∧ b < e := by
  unfold State.clampAddress State.isAddress
  omega

/-- The window is read, never refused: its two clamped ends bound a range of cells inside memory. -/
theorem hostStackWindow_eq (below above : Nat) (s : State) :
    ∃ n : Nat, hostStackWindow below above s = some (.words (s.cellsFrom (s.stackWindowStart below) n)) ∧
      s.stackWindowStart below + n = s.clampAddress (s.reg .sp + above + 1) := by
  have hle : s.stackWindowStart below ≤ s.clampAddress (s.reg .sp + above + 1) := s.clampAddress_mono (by omega)
  have hend : s.stackWindowStart below + (s.clampAddress (s.reg .sp + above + 1) - s.stackWindowStart below).toNat =
      s.clampAddress (s.reg .sp + above + 1) := by omega
  exact ⟨_, hostRead_cells_inside (s.clampAddress_range _).1 (hend.trans_le (s.clampAddress_range _).2), hend⟩

/-- The saved R0 to R7, the return address and the saved frame size are the ten cells below FP (R76). -/
theorem hostFrame_eq {s : State} (h0 : 10 ≤ s.reg .fp) (h1 : s.reg .fp ≤ s.cfg.memSize) :
    hostFrame s = some (.words (s.cellsFrom (s.reg .fp - 10) 10)) :=
  hostRead_cells_inside (by omega) (by omega)

/-- Settles O59: the addresses shown are those of a range clamped to memory, the words shown those of `cellsFrom`. -/
theorem debugViewsShowStackAndFrame : Obligations.DebugViewsShowStackAndFrame := by
  refine fun s => ⟨fun below above => ?window, fun h0 h1 => ?frame⟩
  case window =>
    obtain ⟨n, hview, hend⟩ := hostStackWindow_eq below above s
    refine ⟨_, hview, fun b => ?_, fun _ => s.getElem_cellsFrom _ n⟩
    rw [s.length_cellsFrom, hend, State.stackWindowStart, s.mem_clampAddress_range_iff, Int.lt_add_one_iff]
  case frame =>
    rw [hostFrame_eq h0 h1]
    simp [State.cellsFrom_succ, sub_add]

end Sys2Proof.Machine

/-! ## CLF (spec 43_arith_compare.md R92) -/

namespace Sys2Proof.Machine

/-- Settles O34: CLF is `clearFlags` after `advance 1`, whatever the state, and these write `pc` and the flags only. -/
theorem clfClearsAllFlags : Obligations.ClfClearsAllFlags := ⟨rfl, fun _ => rfl⟩

end Sys2Proof.Machine

/-! ## PutChar and PutString (spec 45_interrupt.md R104, R105) -/

namespace Sys2Proof.Machine

section
variable {s t : State} {e : Raise}

theorem memRead_ok {a : Int} (h : s.isAddress a) : s.memRead a = .ok (s.cell a) := if_pos h

theorem memRead_outside {a : Int} (h : ¬ s.isAddress a) : s.memRead a = .error ⟨.badAddress, a⟩ := if_neg h

/-! ### The routines -/

theorem putChar_ok (ha : s.isAddress (s.reg .sp)) (hchar : s.isCharacter (s.cell (s.reg .sp))) :
    s.putChar = .ok (s.emit [s.cell (s.reg .sp)]) := by
  simp only [State.putChar, memRead_ok ha, if_pos hchar]

theorem putChar_outside (ha : ¬ s.isAddress (s.reg .sp)) : s.putChar = .error ⟨.badAddress, s.reg .sp⟩ := by
  simp only [State.putChar, memRead_outside ha]

theorem putChar_badCharacter (ha : s.isAddress (s.reg .sp)) (hchar : ¬ s.isCharacter (s.cell (s.reg .sp))) :
    s.putChar = .error ⟨.badCharacter, s.cell (s.reg .sp)⟩ := by
  simp only [State.putChar, memRead_ok ha, if_neg hchar]

/-- A scan that begins outside memory ends there, with or without cells left to scan. -/
theorem scanString_outside (fuel : Nat) {a : Int} (ha : ¬ s.isAddress a) :
    s.scanString fuel a = .error ⟨.badAddress, a⟩ := by
  cases fuel with
  | zero => rfl
  | succ fuel => simp only [State.scanString, memRead_outside ha]

/-- The scan of PutString begins at SP and has the cells from there to the end of memory before it. -/
def State.scanAtSp (s : State) : Except Raise (List Int) :=
  s.scanString ((s.cfg.memSize : Int) - s.reg .sp).toNat (s.reg .sp)

theorem putString_ok {cs : List Int} (h : s.scanAtSp = .ok cs) : s.putString = .ok (s.emit (cs ++ [newline])) := by
  unfold State.scanAtSp at h
  simp only [State.putString, h]

theorem putString_error (h : s.scanAtSp = .error e) : s.putString = .error e := by
  unfold State.scanAtSp at h
  simp only [State.putString, h]

/-! ### INT 0 and INT 1 commit them -/

theorem exec_putChar_ok (h : (s.advance 2).putChar = .ok t) : exec (.int .putChar) s = .next t := by
  change commit s (s.advance 2).putChar = _
  rw [h]
  rfl

theorem exec_putChar_fault (h : (s.advance 2).putChar = .error e) :
    exec (.int .putChar) s = .next (s.takeFault s.pc e) := by
  change commit s (s.advance 2).putChar = _
  rw [h]
  rfl

theorem exec_putString_ok {cs : List Int} (h : (s.advance 2).scanAtSp = .ok cs) :
    exec (.int .putString) s = .next ((s.advance 2).emit (cs ++ [newline])) := by
  change commit s (s.advance 2).putString = _
  rw [putString_ok h]
  rfl

/-- A PutString that traps takes the fault of its scan, from the state before it: nothing is emitted. -/
theorem exec_putString_fault (h : (s.advance 2).scanAtSp = .error e) :
    exec (.int .putString) s = .next (s.takeFault s.pc e) := by
  change commit s (s.advance 2).putString = _
  rw [putString_error h]
  rfl

end

/-- Settles O42: INT 0 commits PutChar, which reads SP and its cell as they were before the fetches. -/
theorem putCharEmitsTheCellAtSp : Obligations.PutCharEmitsTheCellAtSp := fun s =>
  ⟨fun ha hchar => exec_putChar_ok (putChar_ok (s := s.advance 2) ha hchar),
    fun ha => exec_putChar_fault (putChar_outside (s := s.advance 2) ha),
    fun ha hchar => exec_putChar_fault (putChar_badCharacter (s := s.advance 2) ha hchar)⟩

/-- Settles O43: the scan answers the string, whose zero cell lies within the cells it has before it. -/
theorem putStringEmitsTheStringAtSp : Obligations.PutStringEmitsTheStringAtSp := fun s cs h0 h1 hcs hzero =>
  exec_putString_ok (scanString_ok (s := s.advance 2) cs h0 h1 (by simp only [State.advance_cfg, State.reg_advance]; omega)
    hcs hzero)

/-- Settles O44: INT 1 takes the fault of the scan, which is at SP outside memory, at `N`, or at the word after the run. -/
theorem putStringTraps : Obligations.PutStringTraps := by
  refine fun s => ⟨fun ha => exec_putString_fault (scanString_outside (s := s.advance 2) _ ha), fun cs ha hcs => ?_⟩
  obtain ⟨h0, -⟩ := ha
  refine ⟨fun hend => exec_putString_fault (scanString_end (s := s.advance 2) cs h0 hend ?_ hcs),
    fun hfit hbad => exec_putString_fault (scanString_badCharacter (s := s.advance 2) cs h0 hfit ?_ hcs hbad)⟩ <;>
  · simp only [State.advance_cfg, State.reg_advance]
    omega

end Sys2Proof.Machine

/-! ## The second phase of ReadLine (spec 45_interrupt.md R107, 60_exceptions.md R129) -/

namespace Sys2Proof.Machine

section
variable {s t : State} {line : List Int}

theorem State.acceptsLine_iff :
    s.acceptsLine line = true ↔ ∀ c ∈ line, 1 ≤ c ∧ c ≤ s.cfg.charMax ∧ s.cfg.inDomain c := by
  simp only [State.acceptsLine, List.all_eq_true, Bool.and_eq_true, decide_eq_true_eq, and_assoc, Config.inDomain]

/-- A core that waits for input takes the line it accepts. -/
theorem hostAct_deliverLine_ok {fpc : Int} (hrun : s.run = .suspended (.input fpc)) (hline : s.acceptsLine line = true) :
    hostAct (.deliverLine line) s = some (s.readLineDeliver fpc line) := by
  simp only [hostAct, hostDeliverLine, hrun, if_pos hline]

/-- A line the core does not accept is refused, whatever the run state. -/
theorem hostAct_deliverLine_refused (hline : ¬ s.acceptsLine line = true) : hostAct (.deliverLine line) s = none := by
  simp only [hostAct, hostDeliverLine, if_neg hline]
  split <;> rfl

/-- A line that fits with its zero is stored when it is written, and SP moves past it. -/
theorem readLineStore_ok (h0 : 0 ≤ s.reg .sp) (h1 : s.reg .sp + line.length < s.cfg.memSize)
    (hwrite : s.memWriteList (s.reg .sp) (line ++ [0]) = .ok t) :
    s.readLineStore line = .ok ((t.setReg .sp (s.reg .sp + line.length + 1)).setRun .running) := by
  simp only [State.readLineStore, if_neg (not_lt.2 h0), if_neg (not_le.2 h1), ge_iff_le, hwrite]

/-- A line that does not fit with its zero raises the first address from SP on that is outside memory. -/
theorem readLineStore_unfit (h : s.reg .sp < 0 ∨ (s.cfg.memSize : Int) ≤ s.reg .sp + line.length) :
    s.readLineStore line = .error ⟨.badAddress,
      if s.reg .sp < 0 ∨ (s.cfg.memSize : Int) ≤ s.reg .sp then s.reg .sp else s.cfg.memSize⟩ := by
  rcases lt_or_ge (s.reg .sp) 0 with hneg | h0
  · simp only [State.readLineStore, if_pos hneg, if_pos (Or.inl hneg)]
  · have hover := h.resolve_left (not_lt.2 h0)
    simp only [State.readLineStore, not_lt.2 h0, if_false, ge_iff_le, if_pos hover, false_or, max_def']

theorem readLineDeliver_of_store (fpc : Int) (h : s.readLineStore line = .ok t) : s.readLineDeliver fpc line = t := by
  simp only [State.readLineDeliver, h]

/-- A line that cannot be stored faults the INT at `fpc`. -/
theorem readLineDeliver_of_error {e : Raise} (fpc : Int) (h : s.readLineStore line = .error e) :
    s.readLineDeliver fpc line = s.takeFault fpc e := by
  simp only [State.readLineDeliver, h]

theorem run_ne_running_of_input {fpc : Int} (hrun : s.run = .suspended (.input fpc)) : s.run ≠ .running := by
  rw [hrun]
  exact RunState.noConfusion

/-- The step in which a core that waits for input takes an accepted line. -/
theorem step_deliverLine_ok {fpc : Int} {rest : List HostOp} (hrun : s.run = .suspended (.input fpc))
    (hin : s.inbox = .deliverLine line :: rest) (hline : s.acceptsLine line = true) (h : s.readLineDeliver fpc line = t) :
    step s = .next { t with inbox := rest, replies := t.replies ++ [.accepted] } :=
  step_hostAct (run_ne_running_of_input hrun) hin (h ▸ hostAct_deliverLine_ok hrun hline)

end

/-- Settles O46: the line and its zero are one list of words written from SP on. -/
theorem deliveredLineIsStoredAtSp : Obligations.DeliveredLineIsStoredAtSp := by
  intro s p codes rest hrun hin hcodes hm h0 h1
  obtain ⟨u, hwrite, hcells, hothers, -, hframe⟩ :=
    memWriteList_ok (s := s) (codes ++ [0]) hm h0 (by simp; omega)
  have hstore := readLineDeliver_of_store p (readLineStore_ok h0 h1 hwrite)
  have hregs : ∀ q, u.reg q = s.reg q := fun q => by rw [hframe]; rfl
  refine ⟨_, step_deliverLine_ok hrun hin (State.acceptsLine_iff.2 hcodes) hstore, fun k hk => ?line, ?zero,
    fun a ha hout => ?others, ?sp, fun q hq => ?regs, ?frame⟩
  case line =>
    have hcell := hcells k (by simp; omega)
    rwa [List.getElem_append_left hk] at hcell
  case zero =>
    have hcell := hcells codes.length (by simp)
    rwa [List.getElem_concat_length rfl] at hcell
  case others => exact hothers a ha.1 (by simp; omega)
  case sp => exact u.reg_setReg_same .sp _
  case regs => exact (u.reg_setReg_other _ hq).trans (hregs q)
  case frame => rw [hframe]; rfl

/-- Settles O47: a bad code is what `acceptsLine` refuses; a line of good codes that cannot be stored faults the INT. -/
theorem badLineIsRefusedAndLongLineFaults : Obligations.BadLineIsRefusedAndLongLineFaults := by
  refine fun s p codes rest hrun hin => ⟨fun ⟨c, hc, hbad⟩ => ?refused, fun hcodes hlong => ?fault⟩
  case refused =>
    have hline : ¬ s.acceptsLine codes = true := fun hline => by
      obtain ⟨hlo, hhi, -⟩ := State.acceptsLine_iff.1 hline c hc
      omega
    rw [step_hostTurn (run_ne_running_of_input hrun), hostTurn_of_refused hin (hostAct_deliverLine_refused hline)]
  case fault =>
    exact step_deliverLine_ok hrun hin (State.acceptsLine_iff.2 hcodes)
      (readLineDeliver_of_error p (readLineStore_unfit hlong))

end Sys2Proof.Machine

/-! ## A fault is precise (spec 40_dispatch.md R63, 60_exceptions.md R111) -/

namespace Sys2Proof.Machine

section
variable {s t : State}

/-- A fault taken at `pc` changes the run state only, and what the run state records is at `pc`. -/
theorem precise_of_takeFault {e : Raise} {f : FaultRecord} (ht : t = s.takeFault s.pc e) (hf : t.run = .faulted f) :
    f.fpc = s.pc ∧ t = { s with run := .faulted f } := by
  subst ht
  cases hf
  exact ⟨rfl, rfl⟩

/-- An instruction that leaves a Running core Faulted has taken its fault: its own rule never writes Faulted. -/
theorem exec_takeFault_of_faulted {i : Instr} {f : FaultRecord} (hrun : s.run = .running) (h : exec i s = .next t)
    (hf : t.run = .faulted f) : ∃ e, t = s.takeFault s.pc e := by
  cases exec_frame h with
  | fault _ e => exact ⟨e, rfl⟩
  | brk | dbg | readLine => cases hf
  | _ => exact absurd (hrun.symm.trans hf) RunState.noConfusion

/-- A step that leaves a Running core Faulted has taken the fault of the instruction at `pc`: of its fetch or decoding, or of
its rule. -/
theorem step_takeFault_of_faulted {f : FaultRecord} (hrun : s.run = .running) (h : step s = .next t)
    (hf : t.run = .faulted f) : ∃ e, t = s.takeFault s.pc e := by
  rcases step_cases h with ⟨i, -, -, hexec⟩ | ⟨e, -, -, ht⟩ | ⟨hidle, -⟩
  · exact exec_takeFault_of_faulted hrun hexec hf
  · exact ⟨e, ht⟩
  · exact absurd hrun hidle

/-- A delivered line that leaves a core Faulted after the first phase of INT 2 has taken the fault of that INT, from the state
before it: the `pc` past the INT and the suspension are undone. -/
theorem deliverLine_takeFault_of_faulted {u : State} {codes : List Int} {f : FaultRecord}
    (h : exec (.int .readLine) s = .next u) (hact : hostAct (.deliverLine codes) u = some t) (hf : t.run = .faulted f) :
    ∃ e, t = s.takeFault s.pc e := by
  obtain rfl : (s.advance 2).setRun (.suspended (.input s.pc)) = u := by
    rw [readLineSuspendsForInput s] at h
    exact Host.Outcome.next.inj h
  cases hostAct_cases hact with
  | deliverLine fpc line hwaits =>
    obtain rfl : s.pc = fpc := by cases hwaits; rfl
    rcases readLineDeliver_cases ((s.advance 2).setRun (.suspended (.input s.pc))) s.pc codes with
      ⟨u, -, hstored, hframe⟩ | ⟨e, -, hfault⟩
    · rw [hstored, hframe] at hf
      cases hf
    · exact ⟨e, hfault⟩

end

/-- Settles O18: whichever way a core comes to be Faulted, it has taken a fault at the address of the instruction, from the state
before that instruction. -/
theorem faultsAreAllOrNothing : Obligations.FaultsAreAllOrNothing := by
  refine ⟨fun s t f hrun h hf => ?step, fun i s t f hrun h hf => ?rule, fun s u t codes f h hact hf => ?line,
    fun s t hrun hend h => ?opcodeFetch⟩
  case step =>
    obtain ⟨e, ht⟩ := step_takeFault_of_faulted hrun h hf
    exact precise_of_takeFault ht hf
  case rule =>
    obtain ⟨e, ht⟩ := exec_takeFault_of_faulted hrun h hf
    exact precise_of_takeFault ht hf
  case line =>
    obtain ⟨e, ht⟩ := deliverLine_takeFault_of_faulted h hact hf
    exact precise_of_takeFault ht hf
  case opcodeFetch =>
    have hfault := (fetchOutsideMemoryFaults s hrun).1 hend
    cases hfault.symm.trans h
    exact ⟨rfl, rfl⟩

end Sys2Proof.Machine

/-! ## Load and Seed (spec 60_exceptions.md R124) -/

namespace Sys2Proof.Machine

/-- What Load asks for: Ready, the words inside memory, and each of them in `V_W`. -/
theorem ready_and_fits_of_hostAct_load {s t : State} {off : Int} {ws : List Int} (h : hostAct (.load off ws) s = some t) :
    s.run = .ready ∧ 0 ≤ off ∧ off + ws.length ≤ s.cfg.memSize ∧ ∀ w ∈ ws, s.cfg.inDomain w := by
  cases hostAct_cases h with
  | load _ _ _ hrun h0 h1 hws _ => exact ⟨hrun, h0, h1, List.all_eq_true.1 hws⟩

/-- Settles O49: Load that is accepted is the writing of the words, and Load is accepted only when nothing refuses it. -/
theorem loadWritesTheImage : Obligations.LoadWritesTheImage := by
  refine fun s off ws => ⟨fun hm hrun h0 h1 hws => ?effect, fun hbad => Option.eq_none_iff_forall_ne_some.2 fun t h => ?refused,
    rfl⟩
  case effect =>
    obtain ⟨t, hwrite, hcells, hothers, -, hframe⟩ := memWriteList_ok ws hm h0 h1
    exact ⟨t, hostAct_load_ok hrun h0 h1 hws hwrite, hcells, fun a ha hout => hothers a ha.1 hout, hframe⟩
  case refused =>
    obtain ⟨hrun, h0, h1, hws⟩ := ready_and_fits_of_hostAct_load h
    rcases hbad with hidle | hneg | hlong | ⟨w, hw, hout⟩
    · exact hidle hrun
    · omega
    · omega
    · exact hout (hws w hw)

end Sys2Proof.Machine
